-- ==== Sys2Proof/Word.lean ====
section
/-! DEFINITION. The widths of TDCORE's values (00_scope.md R5, 30_encoding.md R60 and R66).

A bit sequence `S` of length `n` (R8) is held as a `BitVec n` with element 0 at the MOST significant end, so that the spec's
`S[i]` is `BitVec.getMsbD S i` and the spec's `bits_to_uint(S)` (R9) is the bit vector itself, read as a number. -/

namespace Sys2Proof

/-- The position counter (10_state.md R21): 7 bits. -/
abbrev Pos := BitVec 7

/-- The selector word SEL (30_encoding.md R61): 11 bits. -/
abbrev Sel := BitVec 11

/-- The 76 data bits of a frame, `buf`, `block` and `raw_bits` (R22, R63, R64). -/
abbrev Bits76 := BitVec 76

/-- A 38-bit stream: information, parity or syndrome (R64, R65). -/
abbrev Bits38 := BitVec 38

/-- An address (R66): 16 bits. -/
abbrev Addr := BitVec 16

/-- A command, a checksum, or one of the LFSR registers (R66, R29): 10 bits. -/
abbrev Bits10 := BitVec 10

/-- The flat packing OUTW of a ControlWord (30_encoding.md R67): 228 bits. -/
abbrev OutW := BitVec 228

end Sys2Proof
end

