-- ==== Sys2Proof/Machine/Bits.lean ====
section
/-! DEFINITION. Bit sequences: building one from its elements, slicing, writing one element (00_scope.md R8, R9, R11). -/

namespace Sys2Proof.Machine

/-- The sequence `f 0, f 1, ..., f (n-1)`; element 0 becomes the most significant bit (R8, R9). -/
def seqOf : (n : Nat) → (Nat → Bool) → BitVec n
  | 0, _ => 0#0
  | n + 1, f => BitVec.concat (seqOf n f) (f n)

/-- `slice(S, a, a + len)`: the elements `S[a]` to `S[a+len-1]` (R8). -/
def slice {n : Nat} (S : BitVec n) (a len : Nat) : BitVec len :=
  seqOf len fun i => S.getMsbD (a + i)

/-- `S[k] <- b`: the sequence with element `k` replaced, the others kept (R11). -/
def setElem {n : Nat} (S : BitVec n) (k : Nat) (b : Bool) : BitVec n :=
  seqOf n fun i => if i = k then b else S.getMsbD i

/-- `bits_to_uint(S)` (R9): the sequence read as an unsigned value, its first element most significant. -/
def bitsToUint {n : Nat} (S : BitVec n) : BitVec n := S

/-- `uint_to_bits(v, N)` (R9), the inverse of `bits_to_uint`. -/
def uintToBits {n : Nat} (v : BitVec n) : BitVec n := v

/-- A Boolean as a bit of a packed word: 1 for true (30_encoding.md R67). -/
def boolBit (b : Bool) : BitVec 1 := BitVec.ofBool b

end Sys2Proof.Machine
end

