-- ==== Sys2Proof/Config.lean ====
section
/-! DEFINITION. What the spec leaves to the implementation: CORRECT_MODE and FORCE_VALUE (00_scope.md R6, 10_state.md R27). -/

namespace Sys2Proof

/-- CORRECT_MODE (R6): what the correction stage writes into a bit it corrects. -/
inductive CorrectMode where
  | toggle  -- "corrected toggle mode", encoded 0 (R113, R27)
  | force   -- "literal mode", encoded 1 (R114, R27)
deriving DecidableEq, Repr

namespace Config

/-- The default of CORRECT_MODE is TOGGLE (R6, 92_eei_decisions.md D4). -/
def defaultMode : CorrectMode := .toggle

/-- FORCE_VALUE is OPEN: the source never states it (R6, 93_implementation_defined.md U1). A free value, log entry 1:
nothing can evaluate it, so no claim rests on either bit. -/
opaque forceValue : Bool

end Config

end Sys2Proof
end

