-- ==== Sys2Proof/Machine/Constants.lean ====
section
/-! DEFINITION. The protocol constants of 00_scope.md R5 and the deinterleave table of 41_deinterleaver.md R102. No operation
writes any of them (10_state.md R28). -/

namespace Sys2Proof.Machine

/-- SYNC (R5): the sync pattern `10101100`, first bit in time first. -/
def syncPattern : List Bool := [true, false, true, false, true, true, false, false]

/-- `SYNC[pos]` (R81); there is no such bit from position 8 on. -/
def syncBit (pos : Pos) : Bool := syncPattern.getD pos.toNat false

/-- N_SYNC (R5): the first position that collects data. -/
def nSync : Pos := 8#7

/-- N_FRAME - 1 (R5): the position of a frame's last bit. -/
def lastPos : Pos := 83#7

/-- ADDR_INV and ADDR_KEY (R5). -/
def addrInv : Addr := 0xFFFF#16
def addrKey : Addr := 0x33C7#16

/-- CMD_INV and CMD_KEY (R5). -/
def cmdInv : Bits10 := 0x3FF#10
def cmdKey : Bits10 := 0x32A#10

/-- CSUM_INV (R5). -/
def csumInv : Bits10 := 0x3FF#10

/-- LFSR_A0, LFSR_B0 and LFSR_POLY (R5). -/
def lfsrA0 : Bits10 := 0x36E#10
def lfsrB0 : Bits10 := 0x393#10
def lfsrPoly : Bits10 := 0x225#10

/-- N_CSUM_IN (R5): the information bits the checksum covers. -/
def nCsumIn : Nat := 27

/-- The table `T` of R102, as its list is written there. -/
def deintTable : List Nat :=
  [0, 19, 38, 57, 1, 20, 39, 58, 2, 21, 40, 59, 3, 22, 41, 60, 4, 23, 42, 61] ++
  [5, 24, 43, 62, 6, 25, 44, 63, 7, 26, 45, 64, 8, 27, 46, 65, 9, 28, 47, 66] ++
  [10, 29, 48, 67, 11, 30, 49, 68, 12, 31, 50, 69, 13, 32, 51, 70, 14, 33, 52, 71] ++
  [15, 34, 53, 72, 16, 35, 54, 73, 17, 36, 55, 74, 18, 37, 56, 75]

/-- `T[i]` (R100, R102): the block index that `raw_bits[i]` is read from. -/
def deintIndex (i : Nat) : Nat := deintTable.getD i 0

/-- One wrap of the table generator's running index (R101, with the repaired wrap of 90_conflicts.md C1). -/
def genNext (b : Nat) : Nat := if b + 19 > 76 then (b + 19) % 76 + 1 else b + 19

/-- The table generator of R101: `n` entries from the running 1-based index `b`. -/
def genTable : (n b : Nat) → List Nat
  | 0, _ => []
  | n + 1, b => (b - 1) :: genTable n (genNext b)

end Sys2Proof.Machine
end

