-- ==== Sys2Proof/Machine/State.lean ====
section
/-! DEFINITION. The machine's state as plain data, its faults and refusals, and the state after reset (10_state.md). -/

namespace Sys2Proof.Machine

/-- The spec's one fault (60_exceptions.md R170, R171). -/
inductive Fault where
  /-- InputInvalid, recording the offending value. Raised by FAULT.INPUT, which TAKES it: it sets `halt` and reports the fault
  as the output of the step, a next state (R177). No step ends in `Host.Outcome.fault`. Safe. -/
  | inputInvalid (v : Int)
deriving DecidableEq, Repr

/-- Why an operation is refused. -/
inductive Refusal where
  /-- Raised by an arm of `exec` that has no meaning yet. Safe. -/
  | notModelled (mnemonic : String)
  /-- Raised by RESERVED.POS, and by every step short of RESET from a state with `pos` in 84 to 127, which the spec gives no
  step (30_encoding.md R69, 93_implementation_defined.md U3 and U11: refuse). Safe. -/
  | reservedPos
  /-- Raised by every step short of RESET from a state no RESET has happened in, or with a 1 at a position of `buf` not yet
  collected (70_reset_and_hazards.md R197, 93_implementation_defined.md U3: refuse). Safe. -/
  | unreset
  /-- Raised by `exec` for an operation whose operands are not well-formed: no selector and no input selects it (R62, R170),
  so `step` never meets it. Safe. -/
  | operandOutOfRange
deriving DecidableEq, Repr

/-- The ControlWord (30_encoding.md R66): nine fields. -/
structure ControlWord where
  rawBits          : Bits76
  infoBits         : Bits38
  parityBits       : Bits38
  syndrome         : Bits38
  address          : Addr
  groupFlag        : Bool
  command          : Bits10
  checksumReceived : Bits10
  checksumValid    : Bool
deriving DecidableEq, Repr

/-- The output of one step (00_scope.md R11, 20_memory.md R48). -/
inductive Output where
  | none
  | word (w : ControlWord)
  | fault (f : Fault)
deriving DecidableEq, Repr

/-- What is presented to the machine for one step (20_memory.md R48, R49): the reset pin, whether a value is offered, and the
value. A wire carries 0 or 1; the abstract interface can carry anything else, which is the fault of R170. -/
structure Input where
  rst   : Bool
  valid : Bool
  value : Int
deriving DecidableEq, Repr

/-- The transient values of one step (10_state.md R30) and the two registers of the checksum generator (R29). -/
structure Pipe where
  block            : Bits76
  rawBits          : Bits76
  infoRx           : Bits38
  parityBits       : Bits38
  calculatedParity : Bits38
  syndrome         : Bits38
  infoBits         : Bits38
  address          : Addr
  groupFlag        : Bool
  command          : Bits10
  checksumReceived : Bits10
  checksumComputed : Bits10
  checksumValid    : Bool
  lfsrA            : Bits10
  lfsrB            : Bits10
deriving DecidableEq, Repr

/-- No transient value is in use: what holds between steps (R20 "Nothing else survives from one step to the next"). The zeros
are a DESIGN CHOICE, log entry 2. -/
def Pipe.clear : Pipe :=
  { block := 0, rawBits := 0, infoRx := 0, parityBits := 0, calculatedParity := 0, syndrome := 0, infoBits := 0, address := 0,
    groupFlag := false, command := 0, checksumReceived := 0, checksumComputed := 0, checksumValid := false,
    lfsrA := 0, lfsrB := 0 }

/-- The machine. `pos`, `buf`, `halt` are the architectural registers (10_state.md R20); `correctMode`, `forceValue` the
configuration pins (R27); `pipe` the transients of one step (R29, R30); `out` the output of the last step, which is the pair of
registered pins `out_valid`, `out_word` (20_memory.md R49, 70_reset_and_hazards.md R208); `wasReset` whether the premise of R197
holds, "a RESET step has occurred, or the state is the reset state" (log entry 14); `inputs` what the host will present, next
first (log entry 3). -/
structure State where
  pos         : Pos
  buf         : Bits76
  halt        : Bool
  correctMode : CorrectMode
  forceValue  : Bool
  pipe        : Pipe
  out         : Output
  wasReset    : Bool
  inputs      : List Input
deriving DecidableEq, Repr

/-- The state after reset (10_state.md R33): `pos`, `buf` and `halt` zero, no word pending. The parameters are not reset values:
CORRECT_MODE is at the spec's default (R6), FORCE_VALUE is open (log entry 1). Nothing is pending at the input (log entry 3). -/
def State.reset : State :=
  { pos := 0, buf := 0, halt := false, correctMode := Config.defaultMode, forceValue := Config.forceValue,
    pipe := Pipe.clear, out := .none, wasReset := true, inputs := [] }

end Sys2Proof.Machine
end

