-- ==== Sys2Proof/Machine/Operands.lean ====
section
/-! DEFINITION. The operand forms: the slices of the information word that the field operations read (30_encoding.md R65, R68),
the syndrome pair that the corrector reads (42_parity_corrector.md R112), and the packing of a word (30_encoding.md R67). -/

namespace Sys2Proof.Machine

/-- `info_bits[0:16]` as a number: the scrambled address (R65). -/
def scrambledAddress (info : Bits38) : Addr := bitsToUint (slice info 0 16)

/-- `info_bits[16]`: the group bit (R65). -/
def groupBit (info : Bits38) : Bool := info.getMsbD 16

/-- `info_bits[17:27]` as a number: the scrambled command (R65). -/
def scrambledCommand (info : Bits38) : Bits10 := bitsToUint (slice info 17 10)

/-- `info_bits[27:37]` as a number: the scrambled checksum (R65). -/
def scrambledChecksum (info : Bits38) : Bits10 := bitsToUint (slice info 27 10)

/-- `info_bits[j]`, a bit the checksum covers for `j` up to 26 (R65, 44_checksum.md R141). -/
def coveredBit (info : Bits38) (j : Nat) : Bool := info.getMsbD j

/-- `syndrome[i] = 1 and syndrome[i+1] = 1`, for `i` = 0 to 36 only (R112). -/
def pairAt (syn : Bits38) (i : Nat) : Bool :=
  decide (i ≤ 36) && (syn.getMsbD i && syn.getMsbD (i + 1))

/-- `corrected(x)`: the bit inverted in TOGGLE mode, FORCE_VALUE in FORCE mode (R113, R114). -/
def corrected (mode : CorrectMode) (forceValue x : Bool) : Bool :=
  match mode with
  | .toggle => !x
  | .force => forceValue

/-- OUTW (R67): the nine fields of a word, first field most significant, sequences first element most significant. -/
def outw (w : ControlWord) : OutW :=
  w.rawBits ++ w.infoBits ++ w.parityBits ++ w.syndrome ++ w.address ++ boolBit w.groupFlag ++ w.command ++
    w.checksumReceived ++ boolBit w.checksumValid

end Sys2Proof.Machine
end

