-- ==== Sys2Proof/Syntax.lean ====
section
/-! DEFINITION. The operations of TDCORE: one constructor per mnemonic of opcode_table.json. Rows that share a mnemonic are the
selector patterns of one operation, told apart here by its operands (30_encoding.md R62). -/

namespace Sys2Proof

/-- An operation (00_scope.md R7: the "instruction"). The operands `pos` and `bit` are the selector fields the operation
examines (R61): the position counter at the step, and the accepted bit. -/
inductive Instr where
  | reset                                -- RESET, 70_reset_and_hazards.md R195
  | halted                               -- HALTED, 60_exceptions.md R178
  | idle                                 -- IDLE, 40_framer.md R85
  | syncHit (pos : Pos) (bit : Bool)     -- SYNC.HIT, R81
  | syncMiss (pos : Pos) (bit : Bool)    -- SYNC.MISS, R82
  | collect (pos : Pos) (bit : Bool)     -- COLLECT, R83
  | complete (bit : Bool)                -- COMPLETE, R84
  | reservedPos (pos : Pos) (bit : Bool) -- RESERVED.POS, 30_encoding.md R69
  | faultInput (v : Int)                 -- FAULT.INPUT, 60_exceptions.md R170
  | deint                                -- DEINT, 41_deinterleaver.md R100
  | split                                -- SPLIT, R103
  | parcalc                              -- PARCALC, 42_parity_corrector.md R110
  | syndrome                             -- SYNDROME, R111
  | correct                              -- CORRECT, R112
  | xaddr                                -- XADDR, 43_field_extractor.md R125
  | xgroup                               -- XGROUP, R126
  | xcmd                                 -- XCMD, R127
  | xcsum                                -- XCSUM, R128
  | csumGen                              -- CSUM.GEN, 44_checksum.md R141
  | csumCmp                              -- CSUM.CMP, R143
  | emit                                 -- EMIT, 45_decode_pipeline.md R156
  | lfsrStep (d : Bool)                  -- LFSR.STEP, 44_checksum.md R140
  | decode                               -- DECODE, 45_decode_pipeline.md R155
deriving DecidableEq, Repr

/-- The operation's name in opcode_table.json. -/
def Instr.mnemonic : Instr → String
  | .reset => "RESET"
  | .halted => "HALTED"
  | .idle => "IDLE"
  | .syncHit _ _ => "SYNC.HIT"
  | .syncMiss _ _ => "SYNC.MISS"
  | .collect _ _ => "COLLECT"
  | .complete _ => "COMPLETE"
  | .reservedPos _ _ => "RESERVED.POS"
  | .faultInput _ => "FAULT.INPUT"
  | .deint => "DEINT"
  | .split => "SPLIT"
  | .parcalc => "PARCALC"
  | .syndrome => "SYNDROME"
  | .correct => "CORRECT"
  | .xaddr => "XADDR"
  | .xgroup => "XGROUP"
  | .xcmd => "XCMD"
  | .xcsum => "XCSUM"
  | .csumGen => "CSUM.GEN"
  | .csumCmp => "CSUM.CMP"
  | .emit => "EMIT"
  | .lfsrStep _ => "LFSR.STEP"
  | .decode => "DECODE"

end Sys2Proof
end

