-- ==== Sys2Proof/WellFormed.lean ====
section
/-! DEFINITION. Which operand values an operation can be selected with (30_encoding.md R62, 60_exceptions.md R170). -/

namespace Sys2Proof

/-- The operand checks, read off the operations' own operand lines (R81 to R84, R69, R170). -/
def Instr.wellFormed : Instr → Bool
  | .syncHit pos bit => decide (pos < Machine.nSync) && (bit == Machine.syncBit pos)
  | .syncMiss pos bit => decide (pos < Machine.nSync) && (bit != Machine.syncBit pos)
  | .collect pos _ => decide (Machine.nSync ≤ pos) && decide (pos < Machine.lastPos)
  | .reservedPos pos _ => decide (Machine.lastPos < pos)
  | .faultInput v => (v != 0) && (v != 1)
  | .reset => true
  | .halted => true
  | .idle => true
  | .complete _ => true
  | .deint => true
  | .split => true
  | .parcalc => true
  | .syndrome => true
  | .correct => true
  | .xaddr => true
  | .xgroup => true
  | .xcmd => true
  | .xcsum => true
  | .csumGen => true
  | .csumCmp => true
  | .emit => true
  | .lfsrStep _ => true
  | .decode => true

/-- An operation whose operands the spec gives it. -/
abbrev Instr.WellFormed (i : Instr) : Prop := i.wellFormed = true

end Sys2Proof
end

