-- ==== Sys2Proof/Decode.lean ====
section
/-! DEFINITION. The selector word SEL (30_encoding.md R61), its decoder (R62), the match-and-mask rows of the same rule, and the
encoder. The decoder is total on the 11-bit selector; a word that is no selector is refused by name. -/

namespace Sys2Proof

/-- SEL, formed from the pins and the state (R61): `rst` bit 10, `halt` 9, `in_valid` 8, `pos` 7 to 1, `in_bit` 0. -/
def selWord (rst halt valid : Bool) (pos : Pos) (bit : Bool) : Sel :=
  BitVec.ofBool rst ++ BitVec.ofBool halt ++ BitVec.ofBool valid ++ pos ++ BitVec.ofBool bit

/-- The fields of SEL (R61). -/
def selRst (w : Sel) : Bool := w.getLsbD 10
def selHalt (w : Sel) : Bool := w.getLsbD 9
def selValid (w : Sel) : Bool := w.getLsbD 8
def selPos (w : Sel) : Pos := w.extractLsb' 1 7
def selBit (w : Sel) : Bool := w.getLsbD 0

/-- The operation a bit selects at position `pos` (R62, last seven words of its summary; R80 tests 5 to 7). -/
def decodeBit (pos : Pos) (bit : Bool) : Instr :=
  if pos < Machine.nSync then
    if bit = Machine.syncBit pos then .syncHit pos bit else .syncMiss pos bit
  else if pos < Machine.lastPos then .collect pos bit
  else if pos = Machine.lastPos then .complete bit
  else .reservedPos pos bit

/-- The operation every selector word selects (R62): reset beats everything, then a halted machine does nothing, then an edge
without a valid bit does nothing, then the position and the bit decide. -/
def decodeSel (w : Sel) : Instr :=
  if selRst w then .reset
  else if selHalt w then .halted
  else if !selValid w then .idle
  else decodeBit (selPos w) (selBit w)

/-- One row of the operation table of R62: it matches `w` when `w AND mask = pattern`. -/
structure SelRow where
  mnemonic : String
  pattern  : Sel
  mask     : Sel
deriving DecidableEq, Repr

/-- The rows of R62 (opcode_table.json, format SEL), in the order of the rule. -/
def selRows : List SelRow :=
  [⟨"RESET", 0x400, 0x400⟩, ⟨"HALTED", 0x200, 0x600⟩, ⟨"IDLE", 0x000, 0x700⟩] ++
  [⟨"SYNC.HIT", 0x101, 0x7FF⟩, ⟨"SYNC.HIT", 0x102, 0x7FF⟩, ⟨"SYNC.HIT", 0x105, 0x7FF⟩, ⟨"SYNC.HIT", 0x106, 0x7FF⟩,
   ⟨"SYNC.HIT", 0x109, 0x7FF⟩, ⟨"SYNC.HIT", 0x10B, 0x7FF⟩, ⟨"SYNC.HIT", 0x10C, 0x7FF⟩, ⟨"SYNC.HIT", 0x10E, 0x7FF⟩] ++
  [⟨"SYNC.MISS", 0x100, 0x7FF⟩, ⟨"SYNC.MISS", 0x103, 0x7FF⟩, ⟨"SYNC.MISS", 0x104, 0x7FF⟩, ⟨"SYNC.MISS", 0x107, 0x7FF⟩,
   ⟨"SYNC.MISS", 0x108, 0x7FF⟩, ⟨"SYNC.MISS", 0x10A, 0x7FF⟩, ⟨"SYNC.MISS", 0x10D, 0x7FF⟩, ⟨"SYNC.MISS", 0x10F, 0x7FF⟩] ++
  [⟨"COLLECT", 0x110, 0x7F0⟩, ⟨"COLLECT", 0x120, 0x7E0⟩, ⟨"COLLECT", 0x140, 0x7C0⟩, ⟨"COLLECT", 0x180, 0x7E0⟩,
   ⟨"COLLECT", 0x1A0, 0x7FC⟩, ⟨"COLLECT", 0x1A4, 0x7FE⟩] ++
  [⟨"COMPLETE", 0x1A6, 0x7FE⟩] ++
  [⟨"RESERVED.POS", 0x1A8, 0x7F8⟩, ⟨"RESERVED.POS", 0x1B0, 0x7F0⟩, ⟨"RESERVED.POS", 0x1C0, 0x7C0⟩]

/-- `(SEL & mask) == match` (R62). -/
def SelRow.hits (r : SelRow) (w : Sel) : Bool := (w &&& r.mask) == r.pattern

/-- Why a word is refused by the decoder. -/
inductive DecodeError where
  | notASelector  -- SEL has 11 bits (R61): a number with a bit above them set is no selector word; safe
deriving DecidableEq, Repr

/-- Decoding a number as a selector word (R61). -/
def decodeWord (w : Nat) : Except DecodeError Instr :=
  if w < 2048 then .ok (decodeSel (BitVec.ofNat 11 w)) else .error .notASelector

/-- The host's question: the operation of a word numbered as opcode_table.json numbers it. A row without bits (FAULT.INPUT,
R62: "FAULT.INPUT has no SEL row") has no word. The STAGE rows repeat the word of COMPLETE (R71), which is what it decodes to. -/
def decodeTableWord (nbits w : Nat) : Option Instr :=
  if nbits = 0 then none else (decodeWord w).toOption

/-- The selector word of a well-formed operation, from the same rows, unexamined bits zero (R62). FAULT.INPUT and the stage
operations have no selector of their own (R62, R71). -/
def encode : Instr → Option Sel
  | .reset => some 0x400
  | .halted => some 0x200
  | .idle => some 0x000
  | .syncHit pos bit => some (selWord false false true pos bit)
  | .syncMiss pos bit => some (selWord false false true pos bit)
  | .collect pos bit => some (selWord false false true pos bit)
  | .complete bit => some (selWord false false true Machine.lastPos bit)
  | .reservedPos pos bit => some (selWord false false true pos bit)
  | .faultInput _ => none
  | .deint => none
  | .split => none
  | .parcalc => none
  | .syndrome => none
  | .correct => none
  | .xaddr => none
  | .xgroup => none
  | .xcmd => none
  | .xcsum => none
  | .csumGen => none
  | .csumCmp => none
  | .emit => none
  | .lfsrStep _ => none
  | .decode => none

end Sys2Proof
end

