-- ==== Sys2Proof/Machine/Ops.lean ====
section
/-! DEFINITION. The shared operations over the state: its registers, the input queue, the selection of an operation, the guard of
a step, taking the fault and returning from it. -/

namespace Sys2Proof.Machine

/-- What an operation answers. -/
abbrev Answer := Host.Outcome State Fault Refusal

/-- Run `f` on the next state of `o`; a stop stays that stop. -/
def andThen (o : Answer) (f : State → Answer) : Answer :=
  match o with
  | .next s => f s
  | .fault r => .fault r
  | .refused r => .refused r

/-- `pos <- v` (00_scope.md R11). -/
def State.setPos (s : State) (v : Pos) : State := { s with pos := v }

/-- A write of the whole scratch buffer. -/
def State.setBuf (s : State) (b : Bits76) : State := { s with buf := b }

/-- `halt <- b`. -/
def State.setHalt (s : State) (b : Bool) : State := { s with halt := b }

/-- A write of the transient values of the step. -/
def State.setPipe (s : State) (p : Pipe) : State := { s with pipe := p }

/-- The output of the step (R11). -/
def State.setOut (s : State) (o : Output) : State := { s with out := o }

/-- The premise of 70_reset_and_hazards.md R197 holds or not. -/
def State.setWasReset (s : State) (b : Bool) : State := { s with wasReset := b }

/-- The pending inputs. -/
def State.setInputs (s : State) (l : List Input) : State := { s with inputs := l }

/-- "clear the scratch buffer": 76 zeros (10_state.md R23). -/
def State.clearBuf (s : State) : State := s.setBuf 0

/-- The step's output is `None`. -/
def State.quiet (s : State) : State := s.setOut .none

/-- A clock edge on which nothing is offered (20_memory.md R49, 40_framer.md R85). -/
def noInput : Input := { rst := false, valid := false, value := 0 }

/-- The input of the next step. With nothing pending the edge carries no bit, which is IDLE (R85; log entry 5). -/
def State.nextInput (s : State) : Input := s.inputs.headD noInput

/-- The input of this step is taken: "a single bit is consumed at most once" (20_memory.md R44). -/
def State.consume (s : State) : State := s.setInputs s.inputs.tail

/-- The presented value as a bit, if it is one (R48). -/
def asBit (v : Int) : Option Bool :=
  if v = 0 then some false else if v = 1 then some true else none

/-- A bit as a presented value. -/
def ofBit (b : Bool) : Int := if b then 1 else 0

/-- The operation the state and an input select (40_framer.md R80). A bit is decoded through the selector word; a value that is
no bit has none, and selects FAULT.INPUT after the tests of reset, `halt` and validity (R80 test 4, 60_exceptions.md R176). -/
def selectWith (s : State) (x : Input) : Instr :=
  match asBit x.value with
  | some b => decodeSel (selWord x.rst s.halt x.valid s.pos b)
  | none =>
    if x.rst then .reset else if s.halt then .halted else if !x.valid then .idle else .faultInput x.value

/-- The operation of the next step. -/
def select (s : State) : Instr := selectWith s s.nextInput

/-- The elements of `buf` from `max(pos - 8, 0)` on, moved to the front: those not yet collected (10_state.md R23). -/
def uncollectedPart (pos : Pos) (buf : Bits76) : Bits76 := buf <<< (pos.toNat - 8)

/-- `buf` with the elements not yet collected at 0, as R23 wants them. -/
def collectedPart (pos : Pos) (buf : Bits76) : Bits76 :=
  (buf >>> (76 - (pos.toNat - 8))) <<< (76 - (pos.toNat - 8))

/-- Put a selector word in front of the machine: its pins are the next input, and the state takes the fields that the row of
30_encoding.md R62 it matches examines: `halt` short of reset, `pos` where a bit is accepted. A step at that `pos` needs the
uncollected positions of `buf` at 0 and a RESET in the past (70_reset_and_hazards.md R197). -/
def presentSel (s : State) (w : Sel) : State :=
  let pos := if selRst w || selHalt w || !selValid w then s.pos else selPos w
  { s with
    pos := pos
    buf := collectedPart pos s.buf
    halt := if selRst w then s.halt else selHalt w
    wasReset := true
    inputs := { rst := selRst w, valid := selValid w, value := ofBit (selBit w) } :: s.inputs }

/-- The state is one that a run can be in: a RESET has occurred, `pos` is at most 83, and the positions of `buf` not yet
collected read 0 (10_state.md R34, 70_reset_and_hazards.md R197). -/
def legalState (s : State) : Bool :=
  s.wasReset && (decide (s.pos ≤ lastPos) && (uncollectedPart s.pos s.buf == 0))

/-- RESET has its meaning in every state, every other step only in a state a run can be in (R197, R195). -/
def mayStep (s : State) : Bool := s.nextInput.rst || legalState s

/-- The name a step is refused by that the spec gives no meaning (30_encoding.md R69, R197). -/
def unresetRefusal (s : State) : Refusal := if lastPos < s.pos then .reservedPos else .unreset

/-- "It gives no meaning to a step from an unreset state" (R197, 93_implementation_defined.md U3: refuse). -/
def guardStep (s : State) (o : Answer) : Answer := if mayStep s then o else .refused (unresetRefusal s)

/-- TAKING THE FAULT (60_exceptions.md R170, R177): `halt` is set and the fault, recording the value, is the step's output.
Nothing is saved, `pos` and `buf` stay, and control goes nowhere. -/
def takeInputInvalid (v : Int) (s : State) : State :=
  (s.setHalt true).setOut (.fault (.inputInvalid v))

/-- Nothing of the pipeline survives the step (10_state.md R20, 45_decode_pipeline.md R159). -/
def dropTransients (s : State) : State := s.setPipe Pipe.clear

/-- RETURNING FROM THE FAULT, and every other reset (R179, 70_reset_and_hazards.md R195): the three registers take their reset
values, no transient is in use, and nothing is output. The parameters stay (R195). From here on a RESET has occurred (R197). -/
def resetCore (s : State) : State :=
  (dropTransients ((((s.setPos 0).clearBuf).setHalt false).setWasReset true)).quiet

/-- The completed block: the 75 collected bits and the frame's last bit (40_framer.md R84, line 1). -/
def completedBlock (buf : Bits76) (bit : Bool) : Bits76 :=
  seqOf 76 fun k => if k < 75 then buf.getMsbD k else bit

/-- The completed block enters the decode pipeline (R30: `block`, produced by COMPLETE). -/
def loadBlock (s : State) (block : Bits76) : State := s.setPipe { s.pipe with block := block }

end Sys2Proof.Machine
end

