-- ==== Sys2Proof/Machine/Flags.lean ====
section
/-! DEFINITION. Every flag, predicate and code the spec computes: the framer's two phases (10_state.md R25), the two Boolean
fields of a word (R26), the output pins (20_memory.md R49) and the cause code (60_exceptions.md R171). -/

namespace Sys2Proof.Machine

/-- SEEKING_SYNC (R25). -/
def seekingSync (s : State) : Bool := decide (s.pos < nSync)

/-- COLLECTING_DATA (R25). -/
def collectingData (s : State) : Bool := decide (nSync ≤ s.pos) && decide (s.pos ≤ lastPos)

/-- `group_flag` (43_field_extractor.md R126): true exactly when the group bit is 0. -/
def groupFlagOf (info : Bits38) : Bool := !groupBit info

/-- `checksum_valid` (44_checksum.md R143). -/
def checksumValidOf (received computed : Bits10) : Bool := received == computed

/-- The pin `out_valid` (R49): 1 exactly when a word is emitted. -/
def outValid (s : State) : Bool :=
  match s.out with
  | .none => false
  | .word _ => true
  | .fault _ => false

/-- The pin `out_word` (R49), "meaningful only when out_valid = 1": no value otherwise (93_implementation_defined.md U6). -/
def outWord (s : State) : Option OutW :=
  match s.out with
  | .none => none
  | .word w => some (outw w)
  | .fault _ => none

/-- The cause code of an output (R171): 1 is InputInvalid, 0 is no fault. -/
def causeCode (o : Output) : Nat :=
  match o with
  | .none => 0
  | .word _ => 0
  | .fault (.inputInvalid _) => 1

/-- The value recorded with a fault (R170, R171). -/
def faultValue (o : Output) : Option Int :=
  match o with
  | .none => none
  | .word _ => none
  | .fault (.inputInvalid v) => some v

/-- `message_count` that a collector reads off an output: 1 for every emitted word (45_decode_pipeline.md R160). -/
def messageCount (o : Output) : Nat :=
  match o with
  | .none => 0
  | .word _ => 1
  | .fault _ => 0

/-- `checksum_error_count` that a collector reads off an output: 1 when a word's `checksum_valid` is false (R160). -/
def checksumErrorCount (o : Output) : Nat :=
  match o with
  | .none => 0
  | .word w => if w.checksumValid then 0 else 1
  | .fault _ => 0

/-- The encoding of CORRECT_MODE on its pin `cfg_correct_mode`: TOGGLE 0, FORCE 1 (10_state.md R27). -/
def modeBit (m : CorrectMode) : Bool :=
  match m with
  | .toggle => false
  | .force => true

end Sys2Proof.Machine
end

