-- ==== Sys2Proof/Machine/Checksum.lean ====
section
/-! DEFINITION. LFSR.STEP, CSUM.GEN and CSUM.CMP (44_checksum.md). -/

namespace Sys2Proof.Machine

/-- Line 1 of LFSR.STEP: the next value of register `A` (R140). -/
def lfsrNextA (a : Bits10) : Bits10 := if a.getLsbD 0 then (a >>> 1) ^^^ lfsrPoly else a >>> 1

/-- Line 2 of LFSR.STEP: register `B` absorbs the new `A` when the information bit is 1 (R140). -/
def lfsrNextB (newA b : Bits10) (d : Bool) : Bits10 := if d then b ^^^ newA else b

/-- LFSR.STEP (R140). -/
def execLfsrStep (d : Bool) (s : State) : Answer :=
  .next (s.setPipe
    { s.pipe with lfsrA := lfsrNextA s.pipe.lfsrA, lfsrB := lfsrNextB (lfsrNextA s.pipe.lfsrA) s.pipe.lfsrB d })

/-- `n` rounds of LFSR.STEP over the information bits `j`, `j + 1`, ... in order (R141). -/
def lfsrRounds : (n j : Nat) → State → Answer
  | 0, _, s => .next s
  | n + 1, j, s => andThen (execLfsrStep (coveredBit s.pipe.infoBits j) s) (lfsrRounds n (j + 1))

/-- `A <- 0x36E; B <- 0x393`, afresh for every block (R141, 10_state.md R29). -/
def lfsrInit (s : State) : State := s.setPipe { s.pipe with lfsrA := lfsrA0, lfsrB := lfsrB0 }

/-- `checksum_computed <- B` (R141). -/
def latchChecksum (s : State) : State := s.setPipe { s.pipe with checksumComputed := s.pipe.lfsrB }

/-- CSUM.GEN (R141): 27 rounds of LFSR.STEP from the initial registers. -/
def execCsumGen (s : State) : Answer :=
  andThen (lfsrRounds nCsumIn 0 (lfsrInit s)) fun t => .next (latchChecksum t)

/-- CSUM.CMP (R143). -/
def execCsumCmp (s : State) : Answer :=
  .next (s.setPipe { s.pipe with checksumValid := checksumValidOf s.pipe.checksumReceived s.pipe.checksumComputed })

/-- The registers `(A, B)` after `n` rounds over the bits from `j` on, as a function of their values (R140, R141). -/
def lfsrRun (info : Bits38) : (n j : Nat) → Bits10 × Bits10 → Bits10 × Bits10
  | 0, _, ab => ab
  | n + 1, j, ab =>
    lfsrRun info n (j + 1) (lfsrNextA ab.1, lfsrNextB (lfsrNextA ab.1) ab.2 (coveredBit info j))

/-- `checksum_computed` as a pure function of the information word: "deterministic and pure" (R141). -/
def checksumOf (info : Bits38) : Bits10 := (lfsrRun info nCsumIn 0 (lfsrA0, lfsrB0)).2

end Sys2Proof.Machine
end

