-- ==== Sys2Proof/Machine/Deinterleaver.lean ====
section
/-! DEFINITION. DEINT and SPLIT (41_deinterleaver.md). -/

namespace Sys2Proof.Machine

/-- `raw_bits[i] <- block[T[i]]` (R100). -/
def deinterleave (block : Bits76) : Bits76 := seqOf 76 fun i => block.getMsbD (deintIndex i)

/-- `info_rx[j] <- raw_bits[2j]` (R103). -/
def splitInfo (raw : Bits76) : Bits38 := seqOf 38 fun j => raw.getMsbD (2 * j)

/-- `parity_bits[j] <- raw_bits[2j + 1]` (R103). -/
def splitParity (raw : Bits76) : Bits38 := seqOf 38 fun j => raw.getMsbD (2 * j + 1)

/-- DEINT (R100). -/
def execDeint (s : State) : Answer :=
  .next (s.setPipe { s.pipe with rawBits := deinterleave s.pipe.block })

/-- SPLIT (R103). -/
def execSplit (s : State) : Answer :=
  .next (s.setPipe { s.pipe with infoRx := splitInfo s.pipe.rawBits, parityBits := splitParity s.pipe.rawBits })

end Sys2Proof.Machine
end

