-- ==== Sys2Proof/Machine/Fields.lean ====
section
/-! DEFINITION. XADDR, XGROUP, XCMD and XCSUM (43_field_extractor.md). -/

namespace Sys2Proof.Machine

/-- The descrambled address (R125). -/
def addressOf (info : Bits38) : Addr := (scrambledAddress info ^^^ addrInv) ^^^ addrKey

/-- The descrambled command (R127). -/
def commandOf (info : Bits38) : Bits10 := (scrambledCommand info ^^^ cmdInv) ^^^ cmdKey

/-- The received checksum, descrambled (R128). -/
def checksumReceivedOf (info : Bits38) : Bits10 := scrambledChecksum info ^^^ csumInv

/-- XADDR (R125). -/
def execXaddr (s : State) : Answer := .next (s.setPipe { s.pipe with address := addressOf s.pipe.infoBits })

/-- XGROUP (R126). -/
def execXgroup (s : State) : Answer := .next (s.setPipe { s.pipe with groupFlag := groupFlagOf s.pipe.infoBits })

/-- XCMD (R127). -/
def execXcmd (s : State) : Answer := .next (s.setPipe { s.pipe with command := commandOf s.pipe.infoBits })

/-- XCSUM (R128). -/
def execXcsum (s : State) : Answer :=
  .next (s.setPipe { s.pipe with checksumReceived := checksumReceivedOf s.pipe.infoBits })

end Sys2Proof.Machine
end

