-- ==== Sys2Proof/Machine/Parity.lean ====
section
/-! DEFINITION. PARCALC, SYNDROME and CORRECT (42_parity_corrector.md). -/

namespace Sys2Proof.Machine

/-- Each calculated parity bit is the XOR of an information bit with the one before it, the one before the first being 0
(R110). -/
def parityOf (info : Bits38) : Bits38 :=
  seqOf 38 fun i => if i = 0 then info.getMsbD 0 else info.getMsbD (i - 1) ^^ info.getMsbD i

/-- `syndrome[i] <- parity_bits[i] XOR calculated_parity[i]` (R111). -/
def syndromeOf (parity calculated : Bits38) : Bits38 := parity ^^^ calculated

/-- The correction pass (R112): the bit at the first index of a pair of adjacent 1s is corrected, the others copied. -/
def correctBits (mode : CorrectMode) (forceValue : Bool) (info syn : Bits38) : Bits38 :=
  seqOf 38 fun i => if pairAt syn i then corrected mode forceValue (info.getMsbD i) else info.getMsbD i

/-- PARCALC (R110). -/
def execParcalc (s : State) : Answer :=
  .next (s.setPipe { s.pipe with calculatedParity := parityOf s.pipe.infoRx })

/-- SYNDROME (R111). -/
def execSyndrome (s : State) : Answer :=
  .next (s.setPipe { s.pipe with syndrome := syndromeOf s.pipe.parityBits s.pipe.calculatedParity })

/-- CORRECT (R112 to R114). -/
def execCorrect (s : State) : Answer :=
  .next (s.setPipe
    { s.pipe with infoBits := correctBits s.correctMode s.forceValue s.pipe.infoRx s.pipe.syndrome })

end Sys2Proof.Machine
end

