-- ==== Sys2Proof/Machine/Pipeline.lean ====
section
/-! DEFINITION. DECODE and EMIT (45_decode_pipeline.md): the stages in their order, and the whole decoder as one pure function. -/

namespace Sys2Proof.Machine

/-- Stages 1 to 5 of R71: from the block to the corrected information bits. -/
def runFrontStages (s : State) : Answer :=
  andThen (execDeint s) fun s => andThen (execSplit s) fun s => andThen (execParcalc s) fun s =>
    andThen (execSyndrome s) execCorrect

/-- Stages 6 to 11 of R71: from the information bits to the fields and their check. -/
def runBackStages (s : State) : Answer :=
  andThen (execXaddr s) fun s => andThen (execXgroup s) fun s => andThen (execXcmd s) fun s =>
    andThen (execXcsum s) fun s => andThen (execCsumGen s) execCsumCmp

/-- DECODE (R155): stages 1 to 11, each once, in order. -/
def execDecode (s : State) : Answer := andThen (runFrontStages s) runBackStages

/-- The nine fields of the word, all from the transients of one step (R66, R155 last line). -/
def wordOf (p : Pipe) : ControlWord :=
  { rawBits := p.rawBits, infoBits := p.infoBits, parityBits := p.parityBits, syndrome := p.syndrome, address := p.address,
    groupFlag := p.groupFlag, command := p.command, checksumReceived := p.checksumReceived,
    checksumValid := p.checksumValid }

/-- EMIT (R156): the word becomes the output of the step, whatever `checksum_valid` is (R158). -/
def execEmit (s : State) : Answer := .next (s.setOut (.word (wordOf s.pipe)))

/-- The syndrome of a block, stages 1 to 4 (R155). -/
def blockSyndrome (block : Bits76) : Bits38 :=
  syndromeOf (splitParity (deinterleave block)) (parityOf (splitInfo (deinterleave block)))

/-- The corrected information bits of a block, stages 1 to 5 (R155). -/
def blockInfo (block : Bits76) (mode : CorrectMode) (forceValue : Bool) : Bits38 :=
  correctBits mode forceValue (splitInfo (deinterleave block)) (blockSyndrome block)

/-- DECODE as a pure function of the block and the two parameters (R155, R161). -/
def decodeBlock (block : Bits76) (mode : CorrectMode) (forceValue : Bool) : ControlWord :=
  let info := blockInfo block mode forceValue
  { rawBits := deinterleave block, infoBits := info, parityBits := splitParity (deinterleave block),
    syndrome := blockSyndrome block, address := addressOf info, groupFlag := groupFlagOf info, command := commandOf info,
    checksumReceived := checksumReceivedOf info,
    checksumValid := checksumValidOf (checksumReceivedOf info) (checksumOf info) }

end Sys2Proof.Machine
end

