-- ==== Sys2Proof/Machine/Framer.lean ====
section
/-! DEFINITION. The framer's step operations SYNC.HIT, SYNC.MISS, COLLECT, COMPLETE and IDLE (40_framer.md), and the reserved
positions (30_encoding.md R69). The operand `pos` is the value of the position counter in the selector (R61). -/

namespace Sys2Proof.Machine

/-- SYNC.HIT (R81): one more sync bit is matched; the bit is not stored. -/
def execSyncHit (pos : Pos) (bit : Bool) (s : State) : Answer :=
  if (Instr.syncHit pos bit).wellFormed then .next (s.setPos (pos + 1)).quiet else .refused .operandOutOfRange

/-- SYNC.MISS (R82): back to the start of the search; the mismatching bit is consumed (R87). -/
def execSyncMiss (pos : Pos) (bit : Bool) (s : State) : Answer :=
  if (Instr.syncMiss pos bit).wellFormed then .next ((s.setPos 0).clearBuf).quiet else .refused .operandOutOfRange

/-- COLLECT (R83): `buf[pos - 8] <- bit`. -/
def execCollect (pos : Pos) (bit : Bool) (s : State) : Answer :=
  if (Instr.collect pos bit).wellFormed then
    .next ((s.setBuf (setElem s.buf (pos.toNat - nSync.toNat) bit)).setPos (pos + 1)).quiet
  else .refused .operandOutOfRange

/-- Lines 3 and 4 of COMPLETE (R84), and the end of the step's transients (R20, R159). -/
def finishFrame (s : State) : State := dropTransients ((s.setPos 0).clearBuf)

/-- COMPLETE (R84): the block is decoded, the framer returns to its start, the word is the output. -/
def execComplete (bit : Bool) (s : State) : Answer :=
  andThen (execDecode (loadBlock s (completedBlock s.buf bit))) fun t =>
    andThen (execEmit t) fun u => .next (finishFrame u)

/-- IDLE (R85): nothing changes, nothing is output. -/
def execIdle (s : State) : Answer := .next s.quiet

/-- RESERVED.POS (30_encoding.md R69): "treats a step from such a state as refuse: it has no meaning in this spec". -/
def execReservedPos (_pos : Pos) (_bit : Bool) (_s : State) : Answer := .refused .reservedPos

end Sys2Proof.Machine
end

