-- ==== Sys2Proof/Machine/System.lean ====
section
/-! DEFINITION. RESET, HALTED and FAULT.INPUT (70_reset_and_hazards.md R195, 60_exceptions.md R178 and R170). -/

namespace Sys2Proof.Machine

/-- RESET (R195), the only return from the fault (R179). -/
def execReset (s : State) : Answer := .next (resetCore s)

/-- HALTED (R178): whatever is presented is ignored. -/
def execHalted (s : State) : Answer := .next s.quiet

/-- FAULT.INPUT (R170): the fault is taken. Its operand is neither 0 nor 1. -/
def execFaultInput (v : Int) (s : State) : Answer :=
  if (Instr.faultInput v).wellFormed then .next (takeInputInvalid v s) else .refused .operandOutOfRange

end Sys2Proof.Machine
end

