-- ==== Sys2Proof/Machine/Dispatch.lean ====
section
/-! DEFINITION. The dispatch: each operation to its meaning. -/

namespace Sys2Proof.Machine

def exec (i : Instr) (s : State) : Host.Outcome State Fault Refusal :=
  match i with
  | .reset => Sys2Proof.Machine.execReset s
  | .halted => Sys2Proof.Machine.execHalted s
  | .idle => Sys2Proof.Machine.execIdle s
  | .syncHit pos bit => Sys2Proof.Machine.execSyncHit pos bit s
  | .syncMiss pos bit => Sys2Proof.Machine.execSyncMiss pos bit s
  | .collect pos bit => Sys2Proof.Machine.execCollect pos bit s
  | .complete bit => Sys2Proof.Machine.execComplete bit s
  | .reservedPos pos bit => Sys2Proof.Machine.execReservedPos pos bit s
  | .faultInput v => Sys2Proof.Machine.execFaultInput v s
  | .deint => Sys2Proof.Machine.execDeint s
  | .split => Sys2Proof.Machine.execSplit s
  | .parcalc => Sys2Proof.Machine.execParcalc s
  | .syndrome => Sys2Proof.Machine.execSyndrome s
  | .correct => Sys2Proof.Machine.execCorrect s
  | .xaddr => Sys2Proof.Machine.execXaddr s
  | .xgroup => Sys2Proof.Machine.execXgroup s
  | .xcmd => Sys2Proof.Machine.execXcmd s
  | .xcsum => Sys2Proof.Machine.execXcsum s
  | .csumGen => Sys2Proof.Machine.execCsumGen s
  | .csumCmp => Sys2Proof.Machine.execCsumCmp s
  | .emit => Sys2Proof.Machine.execEmit s
  | .lfsrStep d => Sys2Proof.Machine.execLfsrStep d s
  | .decode => Sys2Proof.Machine.execDecode s

end Sys2Proof.Machine
end

