-- ==== Sys2Proof/Machine/Step.lean ====
section
/-! DEFINITION. One step (20_memory.md R50, 40_framer.md R80): the state and the next input select one operation, the input is
taken, and the operation runs to completion. A step from a state that no run reaches is refused, but for RESET
(70_reset_and_hazards.md R197). -/

namespace Sys2Proof.Machine

/-- One step of TDCORE: exactly one operation (R80). -/
def step (s : State) : Host.Outcome State Fault Refusal :=
  guardStep s (exec (select s) s.consume)

/-- `s` with a selector word in front of it: its pins as the next input, and the fields of the state it examines (R61, R62), so
that the very next step runs the operation it selects. A number that is no selector word changes nothing. -/
def State.withFetchWord (s : State) (nbits w : Nat) : State :=
  if nbits = 0 ∨ 2048 ≤ w then s else presentSel s (BitVec.ofNat 11 w)

end Sys2Proof.Machine
end

