-- ==== Sys2Proof/Safety.lean ====
section
/-! DEFINITION. The terms the claims use: the invariant of the reachable states (10_state.md R34), the stimulus tokens
(30_encoding.md R72), runs with their outputs (70_reset_and_hazards.md R207), the framer as one function (40_framer.md R91), the
checksum constants (44_checksum.md R142), and the inverse construction ENCODE (95_test_vectors.md section 3), which is not part
of TDCORE. -/

namespace Sys2Proof.Machine

/-- What every reachable state satisfies (R34): a RESET has occurred or the state is the reset state (the premise of
70_reset_and_hazards.md R197), `pos` is at most 83, and the positions of `buf` not yet collected hold 0 (R23). -/
abbrev Inv (s : State) : Prop :=
  s.wasReset = true ∧ s.pos ≤ lastPos ∧ ∀ k < 76, s.pos.toNat - 8 ≤ k → s.buf.getMsbD k = false

/-- No transient value is in use, as between any two steps (R20). -/
abbrev Settled (s : State) : Prop := s.pipe = Pipe.clear

/-- `S` with element `k` inverted: a received error. -/
def flipElem {n : Nat} (S : BitVec n) (k : Nat) : BitVec n := setElem S k (!S.getMsbD k)

/-- The corrected information bits, TOGGLE mode, from received information and parity bits (42_parity_corrector.md R110 to R113). -/
def repaired (forceValue : Bool) (info parity : Bits38) : Bits38 :=
  correctBits .toggle forceValue info (syndromeOf parity (parityOf info))

/-- Two words with the same information bits and the same fields, whatever was received. -/
abbrev SameFields (V W : ControlWord) : Prop :=
  V.infoBits = W.infoBits ∧ V.address = W.address ∧ V.groupFlag = W.groupFlag ∧ V.command = W.command ∧
    V.checksumReceived = W.checksumReceived ∧ V.checksumValid = W.checksumValid

/-- Stimulus tokens (R72): a bit, an edge without a bit, a reset, a value that may be no bit. -/
def bitInput (b : Bool) : Input := { rst := false, valid := true, value := ofBit b }
def idleInput : Input := noInput
def resetInput : Input := { rst := true, valid := false, value := 0 }
def badInput (v : Int) : Input := { rst := false, valid := true, value := v }

/-- `FRAME(B)` (R72): the sync pattern and the 76 bits of the block, in stream order. -/
def frameInputs (block : Bits76) : List Input :=
  (syncPattern ++ (List.range 76).map block.getMsbD).map bitInput

/-- `n` steps with the output of each, first step first (R207); none if a step stops. A run from a state that no run reaches
answers only where it starts with RESET: `step` carries the premise of 70_reset_and_hazards.md R197. -/
def runOutputs : Nat → State → Option (List Output × State)
  | 0, s => some ([], s)
  | n + 1, s =>
    match step s with
    | .next t => (runOutputs n t).map fun r => (t.out :: r.1, r.2)
    | .fault _ => none
    | .refused _ => none

/-- The words among a run's outputs. -/
def wordCount (os : List Output) : Nat := (os.map messageCount).sum

/-- Operations one after another. -/
def execAll : List Instr → State → Answer
  | [], s => .next s
  | i :: is, s => andThen (exec i s) (execAll is)

/-- Stages 1 to 5, 6 to 10 and 11 of R71, in its order. -/
def frontStages : List Instr := [.deint, .split, .parcalc, .syndrome, .correct]
def fieldStages : List Instr := [.xaddr, .xgroup, .xcmd, .xcsum, .csumGen]

/-- The next value of `pos` (40_framer.md R86). -/
def nextPos (pos : Pos) (bit : Bool) : Nat :=
  if pos.toNat < 8 then (if bit = syncBit pos then pos.toNat + 1 else 0)
  else if pos.toNat ≤ 82 then pos.toNat + 1
  else 0

/-- The whole framer as one piece (40_framer.md R91): from `pos`, `buf` and a bit to the new `pos`, `buf` and the output. -/
def accept (mode : CorrectMode) (forceValue : Bool) (pos : Pos) (buf : Bits76) (bit : Bool) : Pos × Bits76 × Output :=
  if pos < nSync then
    if bit = syncBit pos then (pos + 1, buf, .none) else (0, 0, .none)
  else if pos < lastPos then (pos + 1, setElem buf (pos.toNat - 8) bit, .none)
  else (0, 0, .word (decodeBlock (slice buf 0 75 ++ BitVec.ofBool bit) mode forceValue))

/-- `Tinv[p]` (41_deinterleaver.md R102). -/
def deintInverse (p : Nat) : Nat := 4 * (p % 19) + p / 19

/-- `K[j]` (44_checksum.md R142), as its table lists them. -/
def checksumK : List Bits10 :=
  [0x1B7, 0x2FE, 0x17F, 0x29A, 0x14D, 0x283, 0x364, 0x1B2, 0x0D9] ++
  [0x249, 0x301, 0x3A5, 0x3F7, 0x3DE, 0x1EF, 0x2D2, 0x169, 0x291] ++
  [0x36D, 0x393, 0x3EC, 0x1F6, 0x0FB, 0x258, 0x12C, 0x096, 0x04B]

/-- The XOR of the constants that the 1 bits among the first 27 select (R142). -/
def selectedK (info : Bits38) : Bits10 :=
  (List.range 27).foldl (fun acc j => if info.getMsbD j then acc ^^^ checksumK.getD j 0 else acc) 0

/-- The information word of a tuple (43_field_extractor.md R131), with `info_bits[37] = l`. -/
def infoWord (a : Addr) (g : Bool) (c k : Bits10) (l : Bool) : Bits38 :=
  (a ^^^ 0xCC38#16) ++ BitVec.ofBool (!g) ++ (c ^^^ 0x0D5#10) ++ (k ^^^ 0x3FF#10) ++ BitVec.ofBool l

/-- The block whose deinterleaved stream is `info` and its calculated parity (95_test_vectors.md section 3, steps 7 to 9). -/
def interleave (info : Bits38) : Bits76 :=
  seqOf 76 fun p =>
    let i := deintInverse p
    if i % 2 = 0 then info.getMsbD (i / 2) else (parityOf info).getMsbD (i / 2)

/-- `ENCODE(a, g, c, l)` (95_test_vectors.md section 3). -/
def encodeBlock (a : Addr) (g : Bool) (c : Bits10) (l : Bool) : Bits76 :=
  interleave (infoWord a g c (checksumOf (infoWord a g c 0 l)) l)

end Sys2Proof.Machine
end

