-- ==== Sys2Proof/Certificates/Slice0/Obligations.lean ====
section
/-! DEFINITION. The statements for the provers. Each docstring names the rule of spec/ it formalises. A frame is written as an
equation for the whole next state: the fields not named in it are those of the state before. -/

open Sys2Proof Sys2Proof.Machine

/-! ## Reset, the fault, the stopped and the waiting machine -/

/-- R33: what reset leaves. The first step after reset emits no word, whatever is presented. -/
def Obligations.ResetStateHoldsResetValues : Prop :=
  State.reset.pos = 0 ∧ (∀ k < 76, State.reset.buf.getMsbD k = false) ∧ State.reset.halt = false ∧
  outValid State.reset = false ∧
  (∀ (x : Input) (t : State), exec (selectWith State.reset x) State.reset = .next t → ∀ w, t.out ≠ .word w) ∧
  ∀ s : State, ∃ t, exec .reset s = .next t ∧ t.pos = 0 ∧ (∀ k < 76, t.buf.getMsbD k = false) ∧ t.halt = false ∧
    t.correctMode = s.correctMode ∧ t.forceValue = s.forceValue

/-- R195: RESET from every state, and reset asserted beats every other condition. The clause on `wasReset` is the model's and not
R195's: log entry 14 (DEDUCED). -/
def Obligations.ResetOperationClears : Prop :=
  ∀ (s : State) (x : Input), x.rst = true →
    selectWith s x = .reset ∧
    ∃ t, exec .reset s = .next t ∧
      t = { s with pos := 0, buf := 0, halt := false, pipe := t.pipe, out := .none, wasReset := true }

/-- R178: whatever is presented to a halted machine short of reset is ignored. -/
def Obligations.HaltedIgnoresInput : Prop :=
  ∀ (s : State) (x : Input),
    (s.halt = true → x.rst = false → selectWith s x = .halted) ∧
    exec .halted s = .next { s with out := .none }

/-- R85: an edge without a bit is IDLE, which changes nothing. -/
def Obligations.IdleChangesNothing : Prop :=
  ∀ (s : State) (x : Input),
    (x.rst = false → s.halt = false → x.valid = false → selectWith s x = .idle) ∧
    exec .idle s = .next { s with out := .none }

/-- R170: a value that is no bit is FAULT.INPUT, which sets `halt`, records the value and changes nothing else; no selector
word selects it. -/
def Obligations.FaultInputHalts : Prop :=
  (∀ (s : State) (x : Input), x.rst = false → s.halt = false → x.valid = true → x.value ≠ 0 → x.value ≠ 1 →
    selectWith s x = .faultInput x.value) ∧
  (∀ (s : State) (v : Int), v ≠ 0 → v ≠ 1 →
    exec (.faultInput v) s = .next { s with halt := true, out := .fault (.inputInvalid v) }) ∧
  ∀ (w : Sel) (v : Int), decodeSel w ≠ .faultInput v

/-- R171: the cause code and the recorded value, the same whatever the state. -/
def Obligations.FaultCauseCode : Prop :=
  ∀ (s : State) (v : Int), v ≠ 0 → v ≠ 1 → ∃ t, exec (.faultInput v) s = .next t ∧
    causeCode t.out = 1 ∧ faultValue t.out = some v ∧ causeCode .none = 0 ∧ ∀ w, causeCode (.word w) = 0

/-- R24: `halt` is set by FAULT.INPUT and by nothing else, cleared by RESET and by nothing else; while it is 1 every step is
HALTED or RESET. -/
def Obligations.HaltSetAndClearedOnlyBy : Prop :=
  State.reset.halt = false ∧
  (∀ (i : Instr) (s t : State), exec i s = .next t →
    (s.halt = false → t.halt = true → ∃ v, i = .faultInput v) ∧ (s.halt = true → t.halt = false → i = .reset)) ∧
  (∀ (s : State) (x : Input), s.halt = true → selectWith s x = .halted ∨ (x.rst = true ∧ selectWith s x = .reset)) ∧
  ∀ (s t : State), exec .halted s = .next t → t = { s with out := .none }

/-! ## The framer -/

/-- R81: SYNC.HIT at every position of the pattern `10101100`. -/
def Obligations.SyncHitAdvances : Prop :=
  ∀ (s : State) (bit : Bool), [true, false, true, false, true, true, false, false][s.pos.toNat]? = some bit →
    decodeSel (selWord false false true s.pos bit) = .syncHit s.pos bit ∧
    ∃ t, exec (.syncHit s.pos bit) s = .next t ∧ t.pos.toNat = s.pos.toNat + 1 ∧
      t = { s with pos := t.pos, out := .none }

/-- R82: SYNC.MISS at every position of the pattern. -/
def Obligations.SyncMissRestarts : Prop :=
  ∀ (s : State) (bit : Bool), [true, false, true, false, true, true, false, false][s.pos.toNat]? = some (!bit) →
    decodeSel (selWord false false true s.pos bit) = .syncMiss s.pos bit ∧
    exec (.syncMiss s.pos bit) s = .next { s with pos := 0, buf := 0, out := .none }

/-- R83: COLLECT at positions 8 to 82, either bit. -/
def Obligations.CollectAppendsBit : Prop :=
  ∀ (s : State) (bit : Bool), 8 ≤ s.pos.toNat → s.pos.toNat ≤ 82 →
    decodeSel (selWord false false true s.pos bit) = .collect s.pos bit ∧
    ∃ t, exec (.collect s.pos bit) s = .next t ∧ t.pos.toNat = s.pos.toNat + 1 ∧
      (∀ k < 76, t.buf.getMsbD k = if k = s.pos.toNat - 8 then bit else s.buf.getMsbD k) ∧
      t = { s with pos := t.pos, buf := t.buf, out := .none }

/-- R84: COMPLETE at position 83, either bit: the word of the 75 collected bits and this one, and a cleared framer. The
transients of the step are said elsewhere (`TransientsDropped`). -/
def Obligations.CompleteEmitsDecodedBlock : Prop :=
  ∀ (s : State) (bit : Bool), s.pos.toNat = 83 →
    decodeSel (selWord false false true s.pos bit) = .complete bit ∧
    ∃ (t : State) (block : Bits76), exec (.complete bit) s = .next t ∧
      (∀ k < 75, block.getMsbD k = s.buf.getMsbD k) ∧ block.getMsbD 75 = bit ∧
      t = { s with pos := 0, buf := 0, pipe := t.pipe,
                   out := .word (decodeBlock block s.correctMode s.forceValue) }

/-- R69, its clauses (a) and (b): a bit at a reserved position selects RESERVED.POS, which is refused; so is every step short of
reset from there; a value that is no bit raises InputInvalid. -/
def Obligations.ReservedPositionRefused : Prop :=
  (∀ (s : State) (bit : Bool), 84 ≤ s.pos.toNat →
    decodeSel (selWord false false true s.pos bit) = .reservedPos s.pos bit ∧
    exec (.reservedPos s.pos bit) s = .refused .reservedPos) ∧
  (∀ s : State, 84 ≤ s.pos.toNat → s.nextInput.rst = false → step s = .refused .reservedPos) ∧
  ∀ (s : State) (v : Int), v ≠ 0 → v ≠ 1 → s.halt = false →
    ∃ t, exec (selectWith s { rst := false, valid := true, value := v }) s = .next t ∧ t.out = .fault (.inputInvalid v)

/-- R86: the next `pos` is a function of `pos` and the bit alone. -/
def Obligations.NextPosOfBit : Prop :=
  ∀ (s : State) (bit : Bool), s.pos.toNat ≤ 83 →
    ∃ t, exec (decodeSel (selWord false false true s.pos bit)) s = .next t ∧ t.pos.toNat = nextPos s.pos bit

/-- R91: the selected operation on a bit is the framer written as one function. -/
def Obligations.FramerIsAccept : Prop :=
  ∀ (s : State) (bit : Bool), s.pos.toNat ≤ 83 →
    ∃ t, exec (decodeSel (selWord false false true s.pos bit)) s = .next t ∧
      (t.pos, t.buf, t.out) = accept s.correctMode s.forceValue s.pos s.buf bit ∧
      t = { s with pos := t.pos, buf := t.buf, out := t.out, pipe := t.pipe }

/-! ## Selection, encoding, the step -/

/-- One step takes the next input and runs the operation it selects, from a state that a run can be in, or where the input is a
reset (R197); with nothing pending the edge carries no bit (log entries 3 and 5, the model's). Every other step is refused:
`StepAnswersFromInvOrReset`. -/
def Obligations.StepRunsSelectedOperation : Prop :=
  (∀ (s : State) (x : Input) (rest : List Input), s.inputs = x :: rest → (Inv s ∨ x.rst = true) →
    step s = exec (selectWith s x) { s with inputs := rest }) ∧
  (∀ (s : State), s.inputs = [] → Inv s → step s = exec (if s.halt then .halted else .idle) s) ∧
  ∀ (s : State) (rst valid bit : Bool),
    selectWith s { rst := rst, valid := valid, value := if bit then 1 else 0 } =
      decodeSel (selWord rst s.halt valid s.pos bit)

/-- R80: exactly one operation, chosen in this order of tests; only COMPLETE and FAULT.INPUT output anything. -/
def Obligations.SelectionOrder : Prop :=
  (∀ (s t : State) (x : Input), exec (selectWith s x) s = .next t →
    t.out = .none ∨ (∃ bit, selectWith s x = .complete bit) ∨ ∃ v, selectWith s x = .faultInput v) ∧
  ∀ (s : State) (x : Input), s.pos.toNat ≤ 83 →
    selectWith s x =
      if x.rst then .reset
      else if s.halt then .halted
      else if !x.valid then .idle
      else if x.value ≠ 0 ∧ x.value ≠ 1 then .faultInput x.value
      else if s.pos.toNat < 8 then
        if [true, false, true, false, true, true, false, false][s.pos.toNat]? = some (decide (x.value = 1)) then
          .syncHit s.pos (decide (x.value = 1))
        else .syncMiss s.pos (decide (x.value = 1))
      else if s.pos.toNat < 83 then .collect s.pos (decide (x.value = 1))
      else .complete (decide (x.value = 1))

/-- R61: the number of the selector word, and its fields. -/
def Obligations.SelectorWordNumber : Prop :=
  ∀ (rst halt valid : Bool) (pos : Pos) (bit : Bool),
    (selWord rst halt valid pos bit).toNat =
      rst.toNat * 1024 + halt.toNat * 512 + valid.toNat * 256 + pos.toNat * 2 + bit.toNat ∧
    selRst (selWord rst halt valid pos bit) = rst ∧ selHalt (selWord rst halt valid pos bit) = halt ∧
    selValid (selWord rst halt valid pos bit) = valid ∧ selPos (selWord rst halt valid pos bit) = pos ∧
    selBit (selWord rst halt valid pos bit) = bit

/-- 30_encoding.md section 2, the table of R62 and the inference that its rows are disjoint and cover every word: every selector
word matches exactly one row, and it is the row of the operation the decoder gives. -/
def Obligations.EverySelectorHasOneRow : Prop :=
  ∀ w : Sel, (selRows.filter fun r => r.hits w).map SelRow.mnemonic = [(decodeSel w).mnemonic]

/-- Decoding the word of a well-formed operation gives the operation back, with every operand. -/
def Obligations.DecodeOfEncodeGivesOperation : Prop :=
  ∀ (i : Instr) (w : Sel), i.WellFormed → encode i = some w → decodeSel w = i

/-- Every selector word decodes to a well-formed operation that has a word, and that word decodes to it again. -/
def Obligations.DecodedOperationIsWellFormed : Prop :=
  ∀ w : Sel, (decodeSel w).WellFormed ∧ ∃ w', encode (decodeSel w) = some w' ∧ decodeSel w' = decodeSel w

/-- Some selector words of the operation table and of the framer vectors, read right. -/
def Obligations.SelectorWordsDecode : Prop :=
  decodeSel 0x400 = .reset ∧ decodeSel 0x5A6 = .reset ∧ decodeSel 0x319 = .halted ∧ decodeSel 0x051 = .idle ∧
  decodeSel 0x101 = .syncHit 0 true ∧ decodeSel 0x10E = .syncHit 7 false ∧ decodeSel 0x103 = .syncMiss 1 true ∧
  decodeSel 0x111 = .collect 8 true ∧ decodeSel 0x1A5 = .collect 82 true ∧ decodeSel 0x1A6 = .complete false ∧
  decodeSel 0x1C9 = .reservedPos 100 true

/-! ## The deinterleaver and the split -/

/-- R100: DEINT reads each output position through the table, which is a permutation of 0 to 75. -/
def Obligations.DeintReadsThroughTable : Prop :=
  ∀ s : State, ∃ t, exec .deint s = .next t ∧
    (∀ i < 76, t.pipe.rawBits.getMsbD i = s.pipe.block.getMsbD (deintIndex i)) ∧
    ((List.range 76).map deintIndex).Perm (List.range 76) ∧
    t = { s with pipe := { s.pipe with rawBits := t.pipe.rawBits } }

/-- 41_deinterleaver.md, the inference of R102: the table in closed form, and its inverse. -/
def Obligations.DeintTableClosedForm : Prop :=
  (∀ i < 76, deintIndex i = 19 * (i % 4) + i / 4 ∧ deintIndex i < 76 ∧ deintInverse (deintIndex i) = i) ∧
  ∀ p < 76, deintInverse p = 4 * (p % 19) + p / 19 ∧ deintInverse p < 76 ∧ deintIndex (deintInverse p) = p

/-- R101: the generator with the repaired wrap makes the table. -/
def Obligations.TableGeneratorMakesTable : Prop :=
  genTable 76 1 = deintTable

/-- DEINT reorders but never creates or drops elements: the number of 1s is kept. -/
def Obligations.DeintKeepsNumberOfOnes : Prop :=
  ∀ block : Bits76,
    ((List.range 76).filter fun i => (deinterleave block).getMsbD i).length =
      ((List.range 76).filter fun p => block.getMsbD p).length

/-- R103: SPLIT takes the even positions as information and the odd ones as parity. -/
def Obligations.SplitByPositionParity : Prop :=
  ∀ s : State, ∃ t, exec .split s = .next t ∧
    (∀ j < 38, t.pipe.infoRx.getMsbD j = s.pipe.rawBits.getMsbD (2 * j) ∧
      t.pipe.parityBits.getMsbD j = s.pipe.rawBits.getMsbD (2 * j + 1)) ∧
    t = { s with pipe := { s.pipe with infoRx := t.pipe.infoRx, parityBits := t.pipe.parityBits } }

/-- The composed map of DEINT and SPLIT: the block index that feeds each information and parity bit. -/
def Obligations.ComposedBlockMap : Prop :=
  ∀ s : State, ∃ t, execAll [.deint, .split] s = .next t ∧
    ∀ j < 38,
      t.pipe.infoRx.getMsbD j = s.pipe.block.getMsbD (if j % 2 = 0 then j / 2 else 38 + j / 2) ∧
      t.pipe.parityBits.getMsbD j = s.pipe.block.getMsbD (if j % 2 = 0 then 19 + j / 2 else 57 + j / 2)

/-! ## The parity corrector -/

/-- R110: PARCALC. -/
def Obligations.ParcalcXorsNeighbours : Prop :=
  ∀ s : State, ∃ t, exec .parcalc s = .next t ∧
    t.pipe.calculatedParity.getMsbD 0 = s.pipe.infoRx.getMsbD 0 ∧
    (∀ i, 1 ≤ i → i ≤ 37 →
      t.pipe.calculatedParity.getMsbD i = (s.pipe.infoRx.getMsbD (i - 1) ^^ s.pipe.infoRx.getMsbD i)) ∧
    t = { s with pipe := { s.pipe with calculatedParity := t.pipe.calculatedParity } }

/-- R111: SYNDROME. -/
def Obligations.SyndromeIsParityDifference : Prop :=
  ∀ s : State, ∃ t, exec .syndrome s = .next t ∧
    (∀ i < 38, t.pipe.syndrome.getMsbD i = (s.pipe.parityBits.getMsbD i ^^ s.pipe.calculatedParity.getMsbD i)) ∧
    t = { s with pipe := { s.pipe with syndrome := t.pipe.syndrome } }

/-- R112, R113, R114: CORRECT in both modes, FORCE for either FORCE_VALUE; TOGGLE is the default. -/
def Obligations.CorrectActsOnPairs : Prop :=
  State.reset.correctMode = .toggle ∧
  ∀ s : State, ∃ t, exec .correct s = .next t ∧
    (∀ i ≤ 36, t.pipe.infoBits.getMsbD i =
      if s.pipe.syndrome.getMsbD i = true ∧ s.pipe.syndrome.getMsbD (i + 1) = true then
        (if s.correctMode = .toggle then !s.pipe.infoRx.getMsbD i else s.forceValue)
      else s.pipe.infoRx.getMsbD i) ∧
    t.pipe.infoBits.getMsbD 37 = s.pipe.infoRx.getMsbD 37 ∧
    t = { s with pipe := { s.pipe with infoBits := t.pipe.infoBits } }

/-- 42_parity_corrector.md section 4, the inference R117: no error, one information error, an error in information bit 37, one
parity error; TOGGLE mode. -/
def Obligations.SingleErrorCases : Prop :=
  ∀ (info par : Bits38) (fv : Bool), syndromeOf par (parityOf info) = 0 →
    repaired fv info par = info ∧
    (∀ k ≤ 36,
      (∀ i < 38, (syndromeOf par (parityOf (flipElem info k))).getMsbD i = decide (i = k ∨ i = k + 1)) ∧
      repaired fv (flipElem info k) par = info) ∧
    (∀ i < 38, (syndromeOf par (parityOf (flipElem info 37))).getMsbD i = decide (i = 37)) ∧
    repaired fv (flipElem info 37) par = flipElem info 37 ∧
    (addressOf (flipElem info 37) = addressOf info ∧ groupFlagOf (flipElem info 37) = groupFlagOf info ∧
      commandOf (flipElem info 37) = commandOf info ∧
      checksumReceivedOf (flipElem info 37) = checksumReceivedOf info ∧
      checksumOf (flipElem info 37) = checksumOf info) ∧
    ∀ k < 38,
      (∀ i < 38, (syndromeOf (flipElem par k) (parityOf info)).getMsbD i = decide (i = k)) ∧
      repaired fv info (flipElem par k) = info

/-- 42_parity_corrector.md section 4, rule R118 (a) to (e): more than one error, TOGGLE mode. -/
def Obligations.MultipleErrorCases : Prop :=
  (∀ (info par : Bits38) (fv : Bool), syndromeOf par (parityOf info) = 0 →
    (∀ k m, k + 3 ≤ m → m ≤ 36 → repaired fv (flipElem (flipElem info k) m) par = info) ∧
    (∀ k ≤ 36, repaired fv (flipElem (flipElem info k) (k + 1)) par = flipElem (flipElem info k) (k + 1)) ∧
    (∀ k ≤ 34, repaired fv (flipElem (flipElem info k) (k + 2)) par = flipElem info (k + 1)) ∧
    (∀ k ≤ 36, repaired fv info (flipElem (flipElem par k) (k + 1)) = flipElem info k)) ∧
  ∀ (info syn : Bits38) (fv : Bool) (a r : Nat), 2 ≤ r → a + r ≤ 38 → (∀ i, a ≤ i → i < a + r → syn.getMsbD i = true) →
    ∀ i, a ≤ i → i + 2 ≤ a + r → (correctBits .toggle fv info syn).getMsbD i = !info.getMsbD i

/-- 42_parity_corrector.md sections 2 and 4, the inferences of R111 and R119: the syndrome is zero exactly on equal parity; no
corruption gives a zero syndrome, one corrupted information bit a non-zero one, and the converse fails. -/
def Obligations.ZeroSyndromeOneWay : Prop :=
  (∀ parity calculated : Bits38, syndromeOf parity calculated = 0 ↔ parity = calculated) ∧
  ∀ info : Bits38,
    syndromeOf (parityOf info) (parityOf info) = 0 ∧
    (∀ k < 38, syndromeOf (parityOf info) (parityOf (flipElem info k)) ≠ 0) ∧
    ∀ k ≤ 36, syndromeOf (flipElem (flipElem (parityOf info) k) (k + 1)) (parityOf (flipElem info k)) = 0

/-- 95_test_vectors.md TH3 and TH4: in TOGGLE mode one inverted information bit 0 to 36, or one inverted parity bit, of a block
with a zero syndrome leaves the decoded information and fields as they were. -/
def Obligations.BlockErrorLeavesFields : Prop :=
  ∀ (block : Bits76) (fv : Bool), blockSyndrome block = 0 →
    (∀ k ≤ 36, SameFields (decodeBlock (flipElem block (deintIndex (2 * k))) .toggle fv) (decodeBlock block .toggle fv)) ∧
    ∀ k < 38, SameFields (decodeBlock (flipElem block (deintIndex (2 * k + 1))) .toggle fv) (decodeBlock block .toggle fv)

/-! ## The field extractor -/

/-- R125: XADDR; `bits_to_uint` is the sum of R9. Every address comes from exactly one pattern of the sixteen bits. -/
def Obligations.XaddrDescramblesAddress : Prop :=
  (∀ v : Addr, ∃ info : Bits38, addressOf info = v ∧
    ∀ other : Bits38, addressOf other = v → ∀ i < 16, other.getMsbD i = info.getMsbD i) ∧
  ∀ s : State, ∃ t, exec .xaddr s = .next t ∧
    t.pipe.address.toNat =
      ((∑ i ∈ Finset.range 16, (s.pipe.infoBits.getMsbD i).toNat * 2 ^ (15 - i)) ^^^ 0xFFFF) ^^^ 0x33C7 ∧
    t = { s with pipe := { s.pipe with address := t.pipe.address } }

/-- R126: XGROUP. -/
def Obligations.XgroupInvertsGroupBit : Prop :=
  ∀ s : State, ∃ t, exec .xgroup s = .next t ∧
    (t.pipe.groupFlag = true ↔ s.pipe.infoBits.getMsbD 16 = false) ∧
    t = { s with pipe := { s.pipe with groupFlag := t.pipe.groupFlag } }

/-- R127: XCMD. -/
def Obligations.XcmdDescramblesCommand : Prop :=
  ∀ s : State, ∃ t, exec .xcmd s = .next t ∧
    t.pipe.command.toNat =
      ((∑ i ∈ Finset.range 10, (s.pipe.infoBits.getMsbD (17 + i)).toNat * 2 ^ (9 - i)) ^^^ 0x3FF) ^^^ 0x32A ∧
    t = { s with pipe := { s.pipe with command := t.pipe.command } }

/-- R128: XCSUM. -/
def Obligations.XcsumDescramblesChecksum : Prop :=
  ∀ s : State, ∃ t, exec .xcsum s = .next t ∧
    t.pipe.checksumReceived.toNat =
      (∑ i ∈ Finset.range 10, (s.pipe.infoBits.getMsbD (27 + i)).toNat * 2 ^ (9 - i)) ^^^ 0x3FF ∧
    t = { s with pipe := { s.pipe with checksumReceived := t.pipe.checksumReceived } }

/-- 43_field_extractor.md, the inference of R131: the fields of a word built by inverting the XORs are the tuple it was built
from. -/
def Obligations.FieldsRoundTrip : Prop :=
  ∀ (a : Addr) (g : Bool) (c k : Bits10) (l : Bool),
    addressOf (infoWord a g c k l) = a ∧ groupFlagOf (infoWord a g c k l) = g ∧
    commandOf (infoWord a g c k l) = c ∧ checksumReceivedOf (infoWord a g c k l) = k

/-! ## The checksum -/

/-- R140: LFSR.STEP: `A` advances first, and `B` absorbs the new `A`. -/
def Obligations.LfsrStepAdvancesThenAbsorbs : Prop :=
  ∀ (s : State) (d : Bool), ∃ t, exec (.lfsrStep d) s = .next t ∧
    t.pipe.lfsrA = (if s.pipe.lfsrA.toNat % 2 = 1 then BitVec.ofNat 10 (s.pipe.lfsrA.toNat / 2) ^^^ 0x225#10
      else BitVec.ofNat 10 (s.pipe.lfsrA.toNat / 2)) ∧
    t.pipe.lfsrB = (if d then s.pipe.lfsrB ^^^ t.pipe.lfsrA else s.pipe.lfsrB) ∧
    t = { s with pipe := { s.pipe with lfsrA := t.pipe.lfsrA, lfsrB := t.pipe.lfsrB } }

/-- R141: CSUM.GEN is 27 times LFSR.STEP from the initial registers, over `info_bits[0]` to `info_bits[26]` in order. -/
def Obligations.CsumGenRunsLfsr : Prop :=
  ∀ s : State, ∃ t u, exec .csumGen s = .next t ∧
    execAll ((List.range 27).map fun j => .lfsrStep (s.pipe.infoBits.getMsbD j))
      { s with pipe := { s.pipe with lfsrA := 0x36E, lfsrB := 0x393 } } = .next u ∧
    t.pipe.checksumComputed = u.pipe.lfsrB ∧
    t = { s with pipe := { s.pipe with lfsrA := t.pipe.lfsrA, lfsrB := t.pipe.lfsrB,
                                       checksumComputed := t.pipe.checksumComputed } }

/-- 44_checksum.md, the inferences of R140 and R142: `A` never becomes 0; the computed checksum is 0x393 XOR the
constants that the 1 bits select; the constants are distinct and non-zero. -/
def Obligations.ChecksumIsXorOfConstants : Prop :=
  (∀ (s t : State) (d : Bool), exec (.lfsrStep d) s = .next t → s.pipe.lfsrA ≠ 0 → t.pipe.lfsrA ≠ 0) ∧
  checksumK.Nodup ∧ 0 ∉ checksumK ∧ checksumK.length = 27 ∧
  (∀ (info : Bits38) (j : Nat), j < 27 → (lfsrRun info (j + 1) 0 (0x36E, 0x393)).1 = checksumK.getD j 0) ∧
  ∀ s : State, ∃ t, exec .csumGen s = .next t ∧ t.pipe.checksumComputed = 0x393 ^^^ selectedK s.pipe.infoBits

/-- R143: CSUM.CMP. -/
def Obligations.CsumCmpComparesChecksums : Prop :=
  ∀ s : State, ∃ t, exec .csumCmp s = .next t ∧
    (t.pipe.checksumValid = true ↔ s.pipe.checksumReceived = s.pipe.checksumComputed) ∧
    t = { s with pipe := { s.pipe with checksumValid := t.pipe.checksumValid } }

/-- 44_checksum.md, the inferences R144 and R145: the check in terms of the received bits; a single wrong bit among
`info_bits[0]` to `info_bits[36]` is noticed, one at 37 is not covered. -/
def Obligations.ChecksumDetectsSingleBit : Prop :=
  (∀ (info : Bits38) (computed : Bits10),
    checksumValidOf (checksumReceivedOf info) computed = true ↔
      bitsToUint (slice info 27 10) = computed ^^^ 0x3FF) ∧
  ∀ info : Bits38,
    (∀ j < 27, checksumOf (flipElem info j) = checksumOf info ^^^ checksumK.getD j 0 ∧
      checksumOf (flipElem info j) ≠ checksumOf info ∧ checksumReceivedOf (flipElem info j) = checksumReceivedOf info) ∧
    (∀ j, 27 ≤ j → j ≤ 36 → checksumReceivedOf (flipElem info j) ≠ checksumReceivedOf info ∧
      checksumOf (flipElem info j) = checksumOf info) ∧
    (checksumOf (flipElem info 37) = checksumOf info ∧ checksumReceivedOf (flipElem info 37) = checksumReceivedOf info) ∧
    (checksumValidOf (checksumReceivedOf info) (checksumOf info) = true → ∀ j ≤ 36,
      checksumValidOf (checksumReceivedOf (flipElem info j)) (checksumOf (flipElem info j)) = false)

/-! ## The decoder as a whole -/

/-- R155: DECODE line by line, and its word is the decoder written as one pure function. -/
def Obligations.DecodeRunsStages : Prop :=
  ∀ s : State, ∃ t, exec .decode s = .next t ∧
    t.pipe.rawBits = deinterleave s.pipe.block ∧
    t.pipe.infoRx = splitInfo t.pipe.rawBits ∧ t.pipe.parityBits = splitParity t.pipe.rawBits ∧
    t.pipe.calculatedParity = parityOf t.pipe.infoRx ∧
    t.pipe.syndrome = syndromeOf t.pipe.parityBits t.pipe.calculatedParity ∧
    t.pipe.infoBits = correctBits s.correctMode s.forceValue t.pipe.infoRx t.pipe.syndrome ∧
    t.pipe.address = addressOf t.pipe.infoBits ∧ t.pipe.groupFlag = groupFlagOf t.pipe.infoBits ∧
    t.pipe.command = commandOf t.pipe.infoBits ∧
    t.pipe.checksumReceived = checksumReceivedOf t.pipe.infoBits ∧
    t.pipe.checksumComputed = checksumOf t.pipe.infoBits ∧
    t.pipe.checksumValid = checksumValidOf t.pipe.checksumReceived t.pipe.checksumComputed ∧
    wordOf t.pipe = decodeBlock s.pipe.block s.correctMode s.forceValue ∧
    t = { s with pipe := t.pipe } ∧ t.pipe.block = s.pipe.block

/-- R156: EMIT makes the nine fields the step's output, whatever `checksum_valid` is, and drives the pins. -/
def Obligations.EmitOutputsWord : Prop :=
  ∀ s : State, ∃ t w, exec .emit s = .next t ∧ t = { s with out := .word w } ∧
    w = ⟨s.pipe.rawBits, s.pipe.infoBits, s.pipe.parityBits, s.pipe.syndrome, s.pipe.address, s.pipe.groupFlag,
         s.pipe.command, s.pipe.checksumReceived, s.pipe.checksumValid⟩ ∧
    outValid t = true ∧ outWord t = some (outw w)

/-- R71: COMPLETE runs the twelve stages once each in order, DECODE is the first eleven, and no selector word selects a
stage. -/
def Obligations.StagesRunInOrder : Prop :=
  (∀ (s : State) (bit : Bool), ∃ t u,
    execAll (frontStages ++ fieldStages ++ [.csumCmp, .emit])
      { s with pipe := { s.pipe with block := completedBlock s.buf bit } } = .next t ∧
    exec (.complete bit) s = .next u ∧ u.out = t.out) ∧
  (∀ s : State, execAll (frontStages ++ fieldStages ++ [.csumCmp]) s = exec .decode s) ∧
  ∀ (w : Sel) (i : Instr), i ∈ frontStages ++ fieldStages ++ [.csumCmp, .emit] → decodeSel w ≠ i

/-- 30_encoding.md section 9, the inference of R71: stages 6 to 10 in any order give the same state, and it is a next state. -/
def Obligations.FieldStagesCommute : Prop :=
  (∀ (l : List Instr) (s : State), l.Perm fieldStages → execAll l s = execAll fieldStages s) ∧
  ∀ s : State, ∃ t, execAll fieldStages s = .next t

/-- 95_test_vectors.md TH2: the decoder inverts ENCODE for every tuple, in either mode. -/
def Obligations.DecodeOfEncodedBlock : Prop :=
  ∀ (a : Addr) (g : Bool) (c : Bits10) (l : Bool) (mode : CorrectMode) (fv : Bool) (W : ControlWord),
    W = decodeBlock (encodeBlock a g c l) mode fv →
    W.address = a ∧ W.groupFlag = g ∧ W.command = c ∧ W.checksumValid = true ∧ W.syndrome = 0 ∧
    W.infoBits.getMsbD 37 = l

/-- R67: the flat packing of a word. -/
def Obligations.OutwFieldPositions : Prop :=
  ∀ w : ControlWord,
    (outw w).extractLsb' 152 76 = w.rawBits ∧ (outw w).extractLsb' 114 38 = w.infoBits ∧
    (outw w).extractLsb' 76 38 = w.parityBits ∧ (outw w).extractLsb' 38 38 = w.syndrome ∧
    (outw w).extractLsb' 22 16 = w.address ∧ (outw w).getLsbD 21 = w.groupFlag ∧
    (outw w).extractLsb' 11 10 = w.command ∧ (outw w).extractLsb' 1 10 = w.checksumReceived ∧
    (outw w).getLsbD 0 = w.checksumValid ∧
    (outw w).getLsbD 227 = w.rawBits.getMsbD 0 ∧ (outw w).getLsbD 38 = w.syndrome.getMsbD 37

/-- The word of a completed block depends on the 76 bits and the two parameters alone (R45, R161). -/
def Obligations.BlockAloneDecidesWord : Prop :=
  ∀ (s s' t t' : State) (bit : Bool),
    (∀ k < 75, s.buf.getMsbD k = s'.buf.getMsbD k) → s.correctMode = s'.correctMode → s.forceValue = s'.forceValue →
    exec (.complete bit) s = .next t → exec (.complete bit) s' = .next t' → t.out = t'.out

/-! ## The whole machine -/

/-- A step emits a word only by accepting a bit at position 83, and the word is the decoded block, whole and of that step. -/
def Obligations.WordOnlyAtFrameEnd : Prop :=
  ∀ (s t : State) (w : ControlWord), step s = .next t → t.out = .word w →
    s.pos.toNat = 83 ∧ s.halt = false ∧ s.nextInput.rst = false ∧ s.nextInput.valid = true ∧
    ∃ bit, s.nextInput.value = ofBit bit ∧ w = decodeBlock (completedBlock s.buf bit) s.correctMode s.forceValue

/-- 95_test_vectors.md TH7: from every state that a run can be in (R197) with `pos = 0` and not halted, FRAME(B) emits exactly one
word, DECODE(B), at its 84th bit, and leaves the framer at its start. -/
def Obligations.FrameEmitsExactlyOneWord : Prop :=
  ∀ (s : State) (block : Bits76) (rest : List Input),
    Inv s → s.pos = 0 → s.halt = false → s.inputs = frameInputs block ++ rest →
    ∃ t, runOutputs 84 s =
        some (List.replicate 83 .none ++ [.word (decodeBlock block s.correctMode s.forceValue)], t) ∧
      t = { s with pos := 0, buf := 0, inputs := rest, pipe := t.pipe,
                   out := .word (decodeBlock block s.correctMode s.forceValue) }

/-- The invariant of 10_state.md R34 is kept by every step, whatever the input (95_test_vectors.md TH9). -/
def Obligations.StepKeepsInv : Prop :=
  ∀ s t : State, Inv s → step s = .next t → Inv t

/-- The invariant holds at reset, and RESET establishes it from every state. -/
def Obligations.ResetMeetsInv : Prop :=
  Inv State.reset ∧ ∀ s : State, ∃ t, exec .reset s = .next t ∧ Inv t

/-- From every state that meets the invariant every step answers a next state: nothing presented can stop the machine. RESET
answers from every state and makes a state that meets it. Every other step, from an unreset or unreachable state, is refused
(70_reset_and_hazards.md R197, 93_implementation_defined.md U3). -/
def Obligations.StepAnswersFromInvOrReset : Prop :=
  (∀ s : State, Inv s → ∃ t, step s = .next t) ∧
  (∀ s : State, s.nextInput.rst = true → ∃ t, step s = .next t ∧ Inv t) ∧
  ∀ s : State, ¬ Inv s → s.nextInput.rst = false → ∃ r, step s = .refused r

/-- No transient of the decode pipeline is left in use by a step (log entry 2, the model's zeros); COMPLETE and RESET clear
them from every state. -/
def Obligations.TransientsDropped : Prop :=
  (∀ s t : State, Settled s → step s = .next t → Settled t) ∧
  (∀ (s : State) (bit : Bool), ∃ t, exec (.complete bit) s = .next t ∧ Settled t) ∧
  ∀ s : State, ∃ t, exec .reset s = .next t ∧ Settled t

/-- No operation writes the two parameters, and FORCE_VALUE is read only in FORCE mode. -/
def Obligations.ParametersNeverWritten : Prop :=
  (∀ (i : Instr) (s t : State), exec i s = .next t → t.correctMode = s.correctMode ∧ t.forceValue = s.forceValue) ∧
  ∀ (block : Bits76) (v v' : Bool), decodeBlock block .toggle v = decodeBlock block .toggle v'

/-- Two words are at least 84 accepted bits apart (95_test_vectors.md TH6), in every run that R197 gives a meaning: `runOutputs`
answers only from a state that meets the invariant or where the first input is a reset (`StepAnswersFromInvOrReset`). -/
def Obligations.OneWordPer84Steps : Prop :=
  ∀ (n : Nat) (s t : State) (os : List Output), runOutputs n s = some (os, t) →
    84 * wordCount os + t.pos.toNat ≤ s.pos.toNat + n

/-- 95_test_vectors.md TH8: on bits alone the machine never halts and never reports a fault; no selector word, which is all the
one-wire input can form, sets `halt` (the inference at the end of 10_state.md R24). -/
def Obligations.BitInputsNeverHalt : Prop :=
  (∀ (w : Sel) (s t : State), exec (decodeSel w) s = .next t → s.halt = false → t.halt = false) ∧
  ∀ (n : Nat) (s t : State) (os : List Output), s.halt = false → (∀ x ∈ s.inputs, x.value = 0 ∨ x.value = 1) →
    runOutputs n s = some (os, t) → t.halt = false ∧ ∀ o ∈ os, ∀ v, o ≠ .fault (.inputInvalid v)
end

