-- ==== Sys2Proof/Laws/Bits.lean ====
section
/-! SUPPORT. What the bit-sequence operations do, element by element. -/

namespace Sys2Proof.Machine

@[simp] theorem seqOf_getMsbD (n : Nat) (f : Nat → Bool) (i : Nat) :
    (seqOf n f).getMsbD i = (decide (i < n) && f i) := by
  induction n with
  | zero => simp [seqOf]
  | succ n ih =>
    rw [seqOf, BitVec.getMsbD_eq_getLsbD, BitVec.getLsbD_concat]
    rcases Nat.lt_trichotomy i n with h | rfl | h
    · have e : n + 1 - 1 - i ≠ 0 := by omega
      have e' : n + 1 - 1 - i - 1 = n - 1 - i := by omega
      rw [BitVec.getMsbD_eq_getLsbD] at ih
      simp only [h, decide_true, Bool.true_and] at ih
      rw [if_neg e, e', ih, decide_eq_true (by omega : i < n + 1)]
    · simp
    · simp [Nat.not_lt.mpr h]

theorem ext_getMsbD {n : Nat} {S T : BitVec n} (h : ∀ i < n, S.getMsbD i = T.getMsbD i) : S = T := by
  apply BitVec.eq_of_getMsbD_eq
  intro i hi
  exact h i hi

theorem getMsbD_ge {n : Nat} (S : BitVec n) {i : Nat} (h : n ≤ i) : S.getMsbD i = false := by
  simp [BitVec.getMsbD, Nat.not_lt.mpr h]

theorem seqOf_congr {n : Nat} {f g : Nat → Bool} (h : ∀ i < n, f i = g i) : seqOf n f = seqOf n g :=
  ext_getMsbD fun i hi => by simp [hi, h i hi]

@[simp] theorem slice_getMsbD {n : Nat} (S : BitVec n) (a len i : Nat) :
    (slice S a len).getMsbD i = (decide (i < len) && S.getMsbD (a + i)) := by simp [slice]

@[simp] theorem setElem_getMsbD {n : Nat} (S : BitVec n) (k : Nat) (b : Bool) (i : Nat) :
    (setElem S k b).getMsbD i = (decide (i < n) && if i = k then b else S.getMsbD i) := by simp [setElem]

@[simp] theorem flipElem_getMsbD {n : Nat} (S : BitVec n) (k i : Nat) :
    (flipElem S k).getMsbD i = (decide (i < n) && if i = k then !S.getMsbD k else S.getMsbD i) := by simp [flipElem]

@[simp] theorem completedBlock_getMsbD (buf : Bits76) (bit : Bool) (k : Nat) :
    (completedBlock buf bit).getMsbD k = (decide (k < 76) && if k < 75 then buf.getMsbD k else bit) := by
  simp [completedBlock]

@[simp] theorem deinterleave_getMsbD (block : Bits76) (i : Nat) :
    (deinterleave block).getMsbD i = (decide (i < 76) && block.getMsbD (deintIndex i)) := by simp [deinterleave]

@[simp] theorem splitInfo_getMsbD (raw : Bits76) (j : Nat) :
    (splitInfo raw).getMsbD j = (decide (j < 38) && raw.getMsbD (2 * j)) := by simp [splitInfo]

@[simp] theorem splitParity_getMsbD (raw : Bits76) (j : Nat) :
    (splitParity raw).getMsbD j = (decide (j < 38) && raw.getMsbD (2 * j + 1)) := by simp [splitParity]

@[simp] theorem parityOf_getMsbD (info : Bits38) (i : Nat) :
    (parityOf info).getMsbD i =
      (decide (i < 38) && if i = 0 then info.getMsbD 0 else (info.getMsbD (i - 1) ^^ info.getMsbD i)) := by
  simp [parityOf]

@[simp] theorem syndromeOf_getMsbD (p c : Bits38) (i : Nat) :
    (syndromeOf p c).getMsbD i = (p.getMsbD i ^^ c.getMsbD i) := by simp [syndromeOf]

@[simp] theorem correctBits_getMsbD (mode : CorrectMode) (fv : Bool) (info syn : Bits38) (i : Nat) :
    (correctBits mode fv info syn).getMsbD i =
      (decide (i < 38) && if pairAt syn i then corrected mode fv (info.getMsbD i) else info.getMsbD i) := by
  simp [correctBits]

end Sys2Proof.Machine
end

