-- ==== Sys2Proof/Laws/State.lean ====
section
/-! SUPPORT. One lemma per field per update of the state. -/

namespace Sys2Proof.Machine

@[simp] theorem State.setPos_pos (s : State) (v : Pos) : (s.setPos v).pos = v := rfl
@[simp] theorem State.setPos_buf (s : State) (v : Pos) : (s.setPos v).buf = s.buf := rfl
@[simp] theorem State.setPos_halt (s : State) (v : Pos) : (s.setPos v).halt = s.halt := rfl
@[simp] theorem State.setPos_correctMode (s : State) (v : Pos) : (s.setPos v).correctMode = s.correctMode := rfl
@[simp] theorem State.setPos_forceValue (s : State) (v : Pos) : (s.setPos v).forceValue = s.forceValue := rfl
@[simp] theorem State.setPos_pipe (s : State) (v : Pos) : (s.setPos v).pipe = s.pipe := rfl
@[simp] theorem State.setPos_out (s : State) (v : Pos) : (s.setPos v).out = s.out := rfl
@[simp] theorem State.setPos_wasReset (s : State) (v : Pos) : (s.setPos v).wasReset = s.wasReset := rfl
@[simp] theorem State.setPos_inputs (s : State) (v : Pos) : (s.setPos v).inputs = s.inputs := rfl

@[simp] theorem State.setBuf_pos (s : State) (v : Bits76) : (s.setBuf v).pos = s.pos := rfl
@[simp] theorem State.setBuf_buf (s : State) (v : Bits76) : (s.setBuf v).buf = v := rfl
@[simp] theorem State.setBuf_halt (s : State) (v : Bits76) : (s.setBuf v).halt = s.halt := rfl
@[simp] theorem State.setBuf_correctMode (s : State) (v : Bits76) : (s.setBuf v).correctMode = s.correctMode := rfl
@[simp] theorem State.setBuf_forceValue (s : State) (v : Bits76) : (s.setBuf v).forceValue = s.forceValue := rfl
@[simp] theorem State.setBuf_pipe (s : State) (v : Bits76) : (s.setBuf v).pipe = s.pipe := rfl
@[simp] theorem State.setBuf_out (s : State) (v : Bits76) : (s.setBuf v).out = s.out := rfl
@[simp] theorem State.setBuf_wasReset (s : State) (v : Bits76) : (s.setBuf v).wasReset = s.wasReset := rfl
@[simp] theorem State.setBuf_inputs (s : State) (v : Bits76) : (s.setBuf v).inputs = s.inputs := rfl

@[simp] theorem State.setHalt_pos (s : State) (v : Bool) : (s.setHalt v).pos = s.pos := rfl
@[simp] theorem State.setHalt_buf (s : State) (v : Bool) : (s.setHalt v).buf = s.buf := rfl
@[simp] theorem State.setHalt_halt (s : State) (v : Bool) : (s.setHalt v).halt = v := rfl
@[simp] theorem State.setHalt_correctMode (s : State) (v : Bool) : (s.setHalt v).correctMode = s.correctMode := rfl
@[simp] theorem State.setHalt_forceValue (s : State) (v : Bool) : (s.setHalt v).forceValue = s.forceValue := rfl
@[simp] theorem State.setHalt_pipe (s : State) (v : Bool) : (s.setHalt v).pipe = s.pipe := rfl
@[simp] theorem State.setHalt_out (s : State) (v : Bool) : (s.setHalt v).out = s.out := rfl
@[simp] theorem State.setHalt_wasReset (s : State) (v : Bool) : (s.setHalt v).wasReset = s.wasReset := rfl
@[simp] theorem State.setHalt_inputs (s : State) (v : Bool) : (s.setHalt v).inputs = s.inputs := rfl

@[simp] theorem State.setPipe_pos (s : State) (v : Pipe) : (s.setPipe v).pos = s.pos := rfl
@[simp] theorem State.setPipe_buf (s : State) (v : Pipe) : (s.setPipe v).buf = s.buf := rfl
@[simp] theorem State.setPipe_halt (s : State) (v : Pipe) : (s.setPipe v).halt = s.halt := rfl
@[simp] theorem State.setPipe_correctMode (s : State) (v : Pipe) : (s.setPipe v).correctMode = s.correctMode := rfl
@[simp] theorem State.setPipe_forceValue (s : State) (v : Pipe) : (s.setPipe v).forceValue = s.forceValue := rfl
@[simp] theorem State.setPipe_pipe (s : State) (v : Pipe) : (s.setPipe v).pipe = v := rfl
@[simp] theorem State.setPipe_out (s : State) (v : Pipe) : (s.setPipe v).out = s.out := rfl
@[simp] theorem State.setPipe_wasReset (s : State) (v : Pipe) : (s.setPipe v).wasReset = s.wasReset := rfl
@[simp] theorem State.setPipe_inputs (s : State) (v : Pipe) : (s.setPipe v).inputs = s.inputs := rfl

@[simp] theorem State.setOut_pos (s : State) (v : Output) : (s.setOut v).pos = s.pos := rfl
@[simp] theorem State.setOut_buf (s : State) (v : Output) : (s.setOut v).buf = s.buf := rfl
@[simp] theorem State.setOut_halt (s : State) (v : Output) : (s.setOut v).halt = s.halt := rfl
@[simp] theorem State.setOut_correctMode (s : State) (v : Output) : (s.setOut v).correctMode = s.correctMode := rfl
@[simp] theorem State.setOut_forceValue (s : State) (v : Output) : (s.setOut v).forceValue = s.forceValue := rfl
@[simp] theorem State.setOut_pipe (s : State) (v : Output) : (s.setOut v).pipe = s.pipe := rfl
@[simp] theorem State.setOut_out (s : State) (v : Output) : (s.setOut v).out = v := rfl
@[simp] theorem State.setOut_wasReset (s : State) (v : Output) : (s.setOut v).wasReset = s.wasReset := rfl
@[simp] theorem State.setOut_inputs (s : State) (v : Output) : (s.setOut v).inputs = s.inputs := rfl

@[simp] theorem State.setInputs_pos (s : State) (v : List Input) : (s.setInputs v).pos = s.pos := rfl
@[simp] theorem State.setInputs_buf (s : State) (v : List Input) : (s.setInputs v).buf = s.buf := rfl
@[simp] theorem State.setInputs_halt (s : State) (v : List Input) : (s.setInputs v).halt = s.halt := rfl
@[simp] theorem State.setInputs_correctMode (s : State) (v : List Input) : (s.setInputs v).correctMode = s.correctMode := rfl
@[simp] theorem State.setInputs_forceValue (s : State) (v : List Input) : (s.setInputs v).forceValue = s.forceValue := rfl
@[simp] theorem State.setInputs_pipe (s : State) (v : List Input) : (s.setInputs v).pipe = s.pipe := rfl
@[simp] theorem State.setInputs_out (s : State) (v : List Input) : (s.setInputs v).out = s.out := rfl
@[simp] theorem State.setInputs_wasReset (s : State) (v : List Input) : (s.setInputs v).wasReset = s.wasReset := rfl
@[simp] theorem State.setInputs_inputs (s : State) (v : List Input) : (s.setInputs v).inputs = v := rfl

@[simp] theorem State.setWasReset_pos (s : State) (v : Bool) : (s.setWasReset v).pos = s.pos := rfl
@[simp] theorem State.setWasReset_buf (s : State) (v : Bool) : (s.setWasReset v).buf = s.buf := rfl
@[simp] theorem State.setWasReset_halt (s : State) (v : Bool) : (s.setWasReset v).halt = s.halt := rfl
@[simp] theorem State.setWasReset_correctMode (s : State) (v : Bool) : (s.setWasReset v).correctMode = s.correctMode := rfl
@[simp] theorem State.setWasReset_forceValue (s : State) (v : Bool) : (s.setWasReset v).forceValue = s.forceValue := rfl
@[simp] theorem State.setWasReset_pipe (s : State) (v : Bool) : (s.setWasReset v).pipe = s.pipe := rfl
@[simp] theorem State.setWasReset_out (s : State) (v : Bool) : (s.setWasReset v).out = s.out := rfl
@[simp] theorem State.setWasReset_wasReset (s : State) (v : Bool) : (s.setWasReset v).wasReset = v := rfl
@[simp] theorem State.setWasReset_inputs (s : State) (v : Bool) : (s.setWasReset v).inputs = s.inputs := rfl

@[simp] theorem State.setPipe_setPipe (s : State) (p q : Pipe) : (s.setPipe p).setPipe q = s.setPipe q := rfl

end Sys2Proof.Machine
end

