-- ==== Sys2Proof/Laws/Ops.lean ====
section
/-! SUPPORT. What each shared operation over the state can do, said once. -/

namespace Sys2Proof.Machine

@[simp] theorem andThen_next (s : State) (f : State → Answer) : andThen (.next s) f = f s := rfl

/-- `andThen` answers a next state exactly when both halves do. -/
theorem andThen_eq_next {o : Answer} {f : State → Answer} {t : State} :
    andThen o f = .next t ↔ ∃ s, o = .next s ∧ f s = .next t := by
  cases o <;> simp [andThen]

theorem andThen_assoc (o : Answer) (f g : State → Answer) :
    andThen (andThen o f) g = andThen o fun s => andThen (f s) g := by
  cases o <;> rfl

theorem consume_eq (s : State) : s.consume = { s with inputs := s.inputs.tail } := rfl

theorem quiet_eq (s : State) : s.quiet = { s with out := .none } := rfl

theorem takeInputInvalid_eq (v : Int) (s : State) :
    takeInputInvalid v s = { s with halt := true, out := .fault (.inputInvalid v) } := rfl

theorem resetCore_eq (s : State) :
    resetCore s = { s with pos := 0, buf := 0, halt := false, pipe := Pipe.clear, out := .none, wasReset := true } := rfl

/-- What `collectedPart` keeps. -/
theorem collectedPart_getMsbD (pos : Pos) (buf : Bits76) (k : Nat) :
    (collectedPart pos buf).getMsbD k = (decide (k < pos.toNat - 8) && buf.getMsbD k) := by
  have hp := pos.isLt
  simp only [collectedPart, BitVec.getMsbD_shiftLeft, BitVec.getMsbD_ushiftRight]
  by_cases hk : k < 76
  · by_cases h : k < pos.toNat - 8
    · simp [h, show k + (76 - (pos.toNat - 8)) - (76 - (pos.toNat - 8)) = k by omega]
      omega
    · simp [h]
      omega
  · simp [BitVec.getMsbD_of_ge buf k (by omega)]

/-- No element is uncollected and 1 exactly when all of them read 0 (10_state.md R23). -/
theorem uncollectedPart_eq_zero {pos : Pos} {buf : Bits76} :
    uncollectedPart pos buf = 0 ↔ ∀ k < 76, pos.toNat - 8 ≤ k → buf.getMsbD k = false := by
  constructor
  · intro h k _ hk
    have := congrArg (fun b => b.getMsbD (k - (pos.toNat - 8))) h
    simpa [uncollectedPart, show k - (pos.toNat - 8) + (pos.toNat - 8) = k by omega] using this
  · intro h
    apply ext_getMsbD
    intro k _
    by_cases hk : k + (pos.toNat - 8) < 76
    · simpa [uncollectedPart] using h _ hk (by omega)
    · simp [uncollectedPart, BitVec.getMsbD_of_ge buf _ (show 76 ≤ k + (pos.toNat - 8) by omega)]

/-- The check of `guardStep` is the invariant of 10_state.md R34. -/
theorem legalState_iff (s : State) : legalState s = true ↔ Inv s := by
  simp only [legalState, Bool.and_eq_true, decide_eq_true_eq, beq_iff_eq, uncollectedPart_eq_zero]

theorem mayStep_iff (s : State) : mayStep s = true ↔ s.nextInput.rst = true ∨ Inv s := by
  rw [mayStep, Bool.or_eq_true, legalState_iff]

/-- The guard of a step answers a next state exactly where the step may be taken and its operation answers it. -/
theorem guardStep_eq_next {s t : State} {o : Answer} :
    guardStep s o = .next t ↔ (s.nextInput.rst = true ∨ Inv s) ∧ o = .next t := by
  rw [← mayStep_iff, guardStep]
  split <;> simp_all

theorem guardStep_of_may {s : State} {o : Answer} (h : s.nextInput.rst = true ∨ Inv s) : guardStep s o = o :=
  if_pos ((mayStep_iff s).mpr h)

theorem guardStep_refuses {s : State} {o : Answer} (hr : s.nextInput.rst = false) (h : ¬ Inv s) :
    guardStep s o = .refused (unresetRefusal s) :=
  if_neg fun hm => by simpa [hr, h] using (mayStep_iff s).mp hm

theorem loadBlock_eq (s : State) (b : Bits76) : loadBlock s b = { s with pipe := { s.pipe with block := b } } := rfl

theorem finishFrame_eq (s : State) : finishFrame s = { s with pos := 0, buf := 0, pipe := Pipe.clear } := rfl

/-- A presented selector word finds a state a run can be in, unless its own position is a reserved one. -/
theorem presentSel_inv {s : State} {w : Sel} (h : (presentSel s w).pos ≤ lastPos) : Inv (presentSel s w) := by
  refine ⟨rfl, h, fun k _ hk => ?_⟩
  rw [show (presentSel s w).buf = collectedPart (presentSel s w).pos s.buf from rfl, collectedPart_getMsbD,
    decide_eq_false (by omega), Bool.false_and]

@[simp] theorem asBit_ofBit (b : Bool) : asBit (ofBit b) = some b := by cases b <;> rfl

/-- A value is no bit exactly when it is neither 0 nor 1. -/
theorem asBit_eq_none {v : Int} : asBit v = none ↔ v ≠ 0 ∧ v ≠ 1 := by
  unfold asBit
  split
  · simp_all
  · split <;> simp_all

/-- A value is the bit `b` exactly when it is that bit's number. -/
theorem asBit_eq_some {v : Int} {b : Bool} : asBit v = some b ↔ v = ofBit b := by
  cases b <;> simp only [asBit, ofBit] <;> split <;> simp_all

@[simp] theorem selRst_selWord (r h v : Bool) (p : Pos) (b : Bool) : selRst (selWord r h v p b) = r := by
  simp only [selRst, selWord, BitVec.getLsbD_append]
  simp

@[simp] theorem selHalt_selWord (r h v : Bool) (p : Pos) (b : Bool) : selHalt (selWord r h v p b) = h := by
  simp only [selHalt, selWord, BitVec.getLsbD_append]
  simp

@[simp] theorem selValid_selWord (r h v : Bool) (p : Pos) (b : Bool) : selValid (selWord r h v p b) = v := by
  simp only [selValid, selWord, BitVec.getLsbD_append]
  simp

@[simp] theorem selBit_selWord (r h v : Bool) (p : Pos) (b : Bool) : selBit (selWord r h v p b) = b := by
  simp only [selBit, selWord, BitVec.getLsbD_append]
  simp

@[simp] theorem selPos_selWord (r h v : Bool) (p : Pos) (b : Bool) : selPos (selWord r h v p b) = p := by
  apply BitVec.eq_of_getLsbD_eq
  intro i hi
  simp only [selPos, selWord, BitVec.getLsbD_extractLsb', BitVec.getLsbD_append]
  simp [hi]

/-- The decoder on a selector formed from its fields: the fields come back. -/
theorem decodeSel_selWord (r h v : Bool) (p : Pos) (b : Bool) :
    decodeSel (selWord r h v p b) =
      if r then .reset else if h then .halted else if !v then .idle else decodeBit p b := by
  simp [decodeSel]

/-- Everything `decodeBit` can give. -/
theorem decodeBit_cases (p : Pos) (b : Bool) :
    (p < 8 ∧ b = syncBit p ∧ decodeBit p b = .syncHit p b) ∨
    (p < 8 ∧ b ≠ syncBit p ∧ decodeBit p b = .syncMiss p b) ∨
    (8 ≤ p ∧ p < 83 ∧ decodeBit p b = .collect p b) ∨
    (p = 83 ∧ decodeBit p b = .complete b) ∨
    (83 < p ∧ decodeBit p b = .reservedPos p b) := by
  unfold decodeBit nSync lastPos
  by_cases h1 : p < 8#7
  · by_cases h2 : b = syncBit p
    · exact .inl ⟨h1, h2, by rw [if_pos h1, if_pos h2]⟩
    · exact .inr (.inl ⟨h1, h2, by rw [if_pos h1, if_neg h2]⟩)
  · by_cases h2 : p < 83#7
    · exact .inr (.inr (.inl ⟨BitVec.not_lt.mp h1, h2, by rw [if_neg h1, if_pos h2]⟩))
    · by_cases h3 : p = 83#7
      · exact .inr (.inr (.inr (.inl ⟨h3, by rw [if_neg h1, if_neg h2, if_pos h3]⟩)))
      · refine .inr (.inr (.inr (.inr ⟨?_, by rw [if_neg h1, if_neg h2, if_neg h3]⟩)))
        change 83#7 < p
        simp only [BitVec.lt_def, BitVec.toNat_eq, BitVec.toNat_ofNat] at h2 h3 ⊢
        omega

/-- Everything `selectWith` can give: the order of tests of 40_framer.md R80. -/
theorem selectWith_cases (s : State) (x : Input) :
    (x.rst = true ∧ selectWith s x = .reset) ∨
    (x.rst = false ∧ s.halt = true ∧ selectWith s x = .halted) ∨
    (x.rst = false ∧ s.halt = false ∧ x.valid = false ∧ selectWith s x = .idle) ∨
    (x.rst = false ∧ s.halt = false ∧ x.valid = true ∧ asBit x.value = none ∧ selectWith s x = .faultInput x.value) ∨
    (∃ b, x.rst = false ∧ s.halt = false ∧ x.valid = true ∧ x.value = ofBit b ∧ selectWith s x = decodeBit s.pos b) := by
  unfold selectWith
  cases hb : asBit x.value with
  | none => cases x.rst <;> cases s.halt <;> cases x.valid <;> simp
  | some b =>
    have hv := asBit_eq_some.mp hb
    cases x.rst <;> cases s.halt <;> cases x.valid <;> simp [decodeSel_selWord, hv]
    cases b <;> simp

end Sys2Proof.Machine
end

