-- ==== Sys2Proof/Laws/Parity.lean ====
section
/-! SUPPORT. How one inverted bit moves the syndrome, and what a correction does to one bit (42_parity_corrector.md). -/

namespace Sys2Proof.Machine

/-- In TOGGLE mode a bit is inverted exactly where a pair of the syndrome starts (R112, R113). -/
theorem repaired_getMsbD (fv : Bool) (got par : Bits38) (i : Nat) (h : i < 38) :
    (repaired fv got par).getMsbD i = (got.getMsbD i ^^ pairAt (syndromeOf par (parityOf got)) i) := by
  rw [repaired, correctBits_getMsbD]
  cases pairAt (syndromeOf par (parityOf got)) i <;> simp [h, corrected]

/-- An inverted information bit `k` inverts the calculated parity at `k` and `k + 1` (R110). -/
theorem parityOf_flip (info : Bits38) (k i : Nat) (hi : i < 38) :
    (parityOf (flipElem info k)).getMsbD i = ((parityOf info).getMsbD i ^^ decide (i = k ∨ i = k + 1)) := by
  simp only [parityOf_getMsbD, flipElem_getMsbD, hi, decide_true, Bool.true_and, show (0 : Nat) < 38 by omega]
  by_cases h0 : i = 0
  · subst h0
    by_cases h : 0 = k
    · subst h; simp
    · simp [h]
  · have h1 : i - 1 < 38 := by omega
    simp only [h0, if_false, h1, decide_true, Bool.true_and]
    by_cases h : i = k
    · subst h
      cases info.getMsbD (i - 1) <;> cases info.getMsbD i <;> simp [show i - 1 ≠ i by omega]
    · by_cases h' : i = k + 1
      · subst h'
        simp only [Nat.add_sub_cancel]
        cases info.getMsbD k <;> cases info.getMsbD (k + 1) <;> simp
      · simp [h, h', show i - 1 ≠ k by omega]

/-- An inverted information bit `k` inverts the syndrome at `k` and `k + 1` (R110, R111). -/
theorem syndrome_flip_info (info par : Bits38) (k i : Nat) (hi : i < 38) :
    (syndromeOf par (parityOf (flipElem info k))).getMsbD i =
      ((syndromeOf par (parityOf info)).getMsbD i ^^ decide (i = k ∨ i = k + 1)) := by
  simp only [syndromeOf_getMsbD, parityOf_flip info k i hi, Bool.xor_assoc]

/-- An inverted parity bit `k` inverts the syndrome at `k` (R111). -/
theorem syndrome_flip_parity (info par : Bits38) (k i : Nat) (hi : i < 38) :
    (syndromeOf (flipElem par k) (parityOf info)).getMsbD i =
      ((syndromeOf par (parityOf info)).getMsbD i ^^ decide (i = k)) := by
  simp only [syndromeOf_getMsbD, flipElem_getMsbD, hi, decide_true, Bool.true_and]
  by_cases h : i = k
  · subst h; cases par.getMsbD i <;> cases (parityOf info).getMsbD i <;> simp
  · simp [h]

end Sys2Proof.Machine
end

