-- ==== Sys2Proof/Laws/PerInstr.lean ====
section
/-! SUPPORT. A law of the syntax, one lemma per operation: an operation's selector word matches a row of its own mnemonic in the
table of 30_encoding.md R62, and an operation without a selector (R62, R71) has no word. -/

namespace Sys2Proof.Laws.EncodedRow

/-- The word of a well-formed operation matches a row of R62 that carries its mnemonic. -/
def Statement (i : Instr) : Prop :=
  i.WellFormed → ∀ w, encode i = some w → ∃ r ∈ selRows, r.hits w = true ∧ r.mnemonic = i.mnemonic

/-- Whether some row of that name matches the word. -/
def rowOf (name : String) (w : Sel) : Bool := selRows.any fun r => r.hits w && (r.mnemonic == name)

theorem exists_of_rowOf {name : String} {w : Sel} (h : rowOf name w = true) :
    ∃ r ∈ selRows, r.hits w = true ∧ r.mnemonic = name := by
  simpa [rowOf] using h

theorem reset : Statement .reset := by rintro _ _ ⟨⟩; exact exists_of_rowOf (by decide)
theorem halted : Statement .halted := by rintro _ _ ⟨⟩; exact exists_of_rowOf (by decide)
theorem idle : Statement .idle := by rintro _ _ ⟨⟩; exact exists_of_rowOf (by decide)

theorem syncHit (pos : Pos) (bit : Bool) : Statement (.syncHit pos bit) := by
  rintro h _ ⟨⟩
  exact exists_of_rowOf ((by decide +kernel : ∀ (p : Pos) (b : Bool), (Instr.syncHit p b).WellFormed →
    rowOf "SYNC.HIT" (selWord false false true p b) = true) pos bit h)

theorem syncMiss (pos : Pos) (bit : Bool) : Statement (.syncMiss pos bit) := by
  rintro h _ ⟨⟩
  exact exists_of_rowOf ((by decide +kernel : ∀ (p : Pos) (b : Bool), (Instr.syncMiss p b).WellFormed →
    rowOf "SYNC.MISS" (selWord false false true p b) = true) pos bit h)

theorem collect (pos : Pos) (bit : Bool) : Statement (.collect pos bit) := by
  rintro h _ ⟨⟩
  exact exists_of_rowOf ((by decide +kernel : ∀ (p : Pos) (b : Bool), (Instr.collect p b).WellFormed →
    rowOf "COLLECT" (selWord false false true p b) = true) pos bit h)

theorem complete (bit : Bool) : Statement (.complete bit) := by
  rintro _ _ ⟨⟩
  exact exists_of_rowOf ((by decide +kernel : ∀ b : Bool,
    rowOf "COMPLETE" (selWord false false true Machine.lastPos b) = true) bit)

theorem reservedPos (pos : Pos) (bit : Bool) : Statement (.reservedPos pos bit) := by
  rintro h _ ⟨⟩
  exact exists_of_rowOf ((by decide +kernel : ∀ (p : Pos) (b : Bool), (Instr.reservedPos p b).WellFormed →
    rowOf "RESERVED.POS" (selWord false false true p b) = true) pos bit h)

theorem faultInput (v : Int) : Statement (.faultInput v) := by rintro _ _ ⟨⟩
theorem deint : Statement .deint := by rintro _ _ ⟨⟩
theorem split : Statement .split := by rintro _ _ ⟨⟩
theorem parcalc : Statement .parcalc := by rintro _ _ ⟨⟩
theorem syndrome : Statement .syndrome := by rintro _ _ ⟨⟩
theorem correct : Statement .correct := by rintro _ _ ⟨⟩
theorem xaddr : Statement .xaddr := by rintro _ _ ⟨⟩
theorem xgroup : Statement .xgroup := by rintro _ _ ⟨⟩
theorem xcmd : Statement .xcmd := by rintro _ _ ⟨⟩
theorem xcsum : Statement .xcsum := by rintro _ _ ⟨⟩
theorem csumGen : Statement .csumGen := by rintro _ _ ⟨⟩
theorem csumCmp : Statement .csumCmp := by rintro _ _ ⟨⟩
theorem emit : Statement .emit := by rintro _ _ ⟨⟩
theorem lfsrStep (d : Bool) : Statement (.lfsrStep d) := by rintro _ _ ⟨⟩
theorem decode : Statement .decode := by rintro _ _ ⟨⟩

end Sys2Proof.Laws.EncodedRow
end

