-- ==== Sys2Proof/Laws/Stages.lean ====
section
/-! SUPPORT. What each meaning answers, said once. -/

namespace Sys2Proof.Machine

/-- The rounds of LFSR.STEP always complete; only the two registers of the generator move, as `lfsrRun` says. -/
theorem lfsrRounds_eq (n : Nat) : ∀ (j : Nat) (s : State),
    lfsrRounds n j s = .next (s.setPipe
      { s.pipe with
        lfsrA := (lfsrRun s.pipe.infoBits n j (s.pipe.lfsrA, s.pipe.lfsrB)).1
        lfsrB := (lfsrRun s.pipe.infoBits n j (s.pipe.lfsrA, s.pipe.lfsrB)).2 }) := by
  induction n with
  | zero => intro j s; rfl
  | succ n ih =>
    intro j s
    simp only [lfsrRounds, execLfsrStep, andThen_next, ih, lfsrRun]
    rfl

/-- The transients after CSUM.GEN. -/
def pipeAfterCsumGen (p : Pipe) : Pipe :=
  { p with
    lfsrA := (lfsrRun p.infoBits nCsumIn 0 (lfsrA0, lfsrB0)).1
    lfsrB := checksumOf p.infoBits
    checksumComputed := checksumOf p.infoBits }

theorem execCsumGen_eq (s : State) : execCsumGen s = .next (s.setPipe (pipeAfterCsumGen s.pipe)) := by
  simp only [execCsumGen, lfsrRounds_eq, andThen_next]
  rfl

/-- The transients after DECODE, line by line of R155. -/
def pipeAfterDecode (p : Pipe) (mode : CorrectMode) (fv : Bool) : Pipe :=
  let raw := deinterleave p.block
  let infoRx := splitInfo raw
  let par := splitParity raw
  let info := correctBits mode fv infoRx (syndromeOf par (parityOf infoRx))
  { block := p.block, rawBits := raw, infoRx := infoRx, parityBits := par, calculatedParity := parityOf infoRx,
    syndrome := syndromeOf par (parityOf infoRx), infoBits := info, address := addressOf info,
    groupFlag := groupFlagOf info, command := commandOf info, checksumReceived := checksumReceivedOf info,
    checksumComputed := checksumOf info,
    checksumValid := checksumValidOf (checksumReceivedOf info) (checksumOf info),
    lfsrA := (lfsrRun info nCsumIn 0 (lfsrA0, lfsrB0)).1, lfsrB := checksumOf info }

theorem execDecode_eq (s : State) :
    execDecode s = .next (s.setPipe (pipeAfterDecode s.pipe s.correctMode s.forceValue)) := by
  simp only [execDecode, runFrontStages, runBackStages, execDeint, execSplit, execParcalc, execSyndrome, execCorrect,
    execXaddr, execXgroup, execXcmd, execXcsum, execCsumCmp, execCsumGen_eq, andThen_next, State.setPipe_pipe,
    State.setPipe_correctMode, State.setPipe_forceValue, State.setPipe_setPipe, pipeAfterCsumGen, pipeAfterDecode]

theorem execComplete_eq (bit : Bool) (s : State) :
    execComplete bit s = .next
      { s with
        pos := 0, buf := 0, pipe := Pipe.clear
        out := .word (decodeBlock (completedBlock s.buf bit) s.correctMode s.forceValue) } := by
  simp only [execComplete, execDecode_eq, andThen_next, execEmit, loadBlock, State.setPipe_pipe,
    State.setPipe_correctMode, State.setPipe_forceValue, State.setPipe_setPipe, wordOf, pipeAfterDecode, decodeBlock,
    blockInfo, blockSyndrome]
  rfl

/-- A well-formed operation that is not RESERVED.POS always answers a next state. -/
theorem exec_total (i : Instr) (s : State) (h : i.WellFormed) (hr : ∀ p b, i ≠ .reservedPos p b) :
    ∃ t, exec i s = .next t := by
  cases i with
  | syncHit p b => exact ⟨_, if_pos h⟩
  | syncMiss p b => exact ⟨_, if_pos h⟩
  | collect p b => exact ⟨_, if_pos h⟩
  | faultInput v => exact ⟨_, if_pos h⟩
  | reservedPos p b => exact absurd rfl (hr p b)
  | complete b => exact ⟨_, execComplete_eq b s⟩
  | csumGen => exact ⟨_, execCsumGen_eq s⟩
  | decode => exact ⟨_, execDecode_eq s⟩
  | _ => exact ⟨_, rfl⟩

end Sys2Proof.Machine
end

