-- ==== Sys2Proof/Laws/Step.lean ====
section
/-! SUPPORT. What a step can do, said once: the shared inversion that invariants are proved from. -/

namespace Sys2Proof.Machine

/-- One step of the machine on a bit: the framer's own four effects (40_framer.md R81 to R84). -/
theorem exec_decodeBit_cases {s t : State} {p : Pos} {b : Bool} (h : exec (decodeBit p b) s = .next t) :
    (p < 8 ∧ b = syncBit p ∧ t = { s with pos := p + 1, out := .none }) ∨
    (p < 8 ∧ b ≠ syncBit p ∧ t = { s with pos := 0, buf := 0, out := .none }) ∨
    (8 ≤ p ∧ p < 83 ∧ t = { s with pos := p + 1, buf := setElem s.buf (p.toNat - 8) b, out := .none }) ∨
    (p = 83 ∧ t = { s with pos := 0, buf := 0, pipe := Pipe.clear,
                           out := .word (decodeBlock (completedBlock s.buf b) s.correctMode s.forceValue) }) := by
  rcases decodeBit_cases p b with ⟨h1, h2, e⟩ | ⟨h1, h2, e⟩ | ⟨h1, h2, e⟩ | ⟨h1, e⟩ | ⟨h1, e⟩ <;> rw [e] at h
  · have hw : (Instr.syncHit p b).wellFormed = true := by
      simp [Instr.wellFormed, h2, show p < nSync from h1]
    rw [exec, execSyncHit, if_pos hw] at h
    exact .inl ⟨h1, h2, (Host.Outcome.next.inj h).symm⟩
  · have hw : (Instr.syncMiss p b).wellFormed = true := by
      simp [Instr.wellFormed, h2, show p < nSync from h1]
    rw [exec, execSyncMiss, if_pos hw] at h
    exact .inr (.inl ⟨h1, h2, (Host.Outcome.next.inj h).symm⟩)
  · have hw : (Instr.collect p b).wellFormed = true := by
      simp [Instr.wellFormed, show nSync ≤ p from h1, show p < lastPos from h2]
    rw [exec, execCollect, if_pos hw] at h
    exact .inr (.inr (.inl ⟨h1, h2, (Host.Outcome.next.inj h).symm⟩))
  · rw [exec, execComplete_eq] at h
    exact .inr (.inr (.inr ⟨h1, (Host.Outcome.next.inj h).symm⟩))
  · rw [exec, execReservedPos] at h
    cases h

/-- A step answers only from a state a run can be in, or by RESET (70_reset_and_hazards.md R197). -/
theorem step_may {s t : State} (h : step s = .next t) : s.nextInput.rst = true ∨ Inv s := (guardStep_eq_next.mp h).1

/-- Where a step may be taken it is the selected operation. -/
theorem step_eq_exec {s : State} (h : s.nextInput.rst = true ∨ Inv s) : step s = exec (select s) s.consume :=
  guardStep_of_may h

/-- Everything a step that answers can do, over the state with its input taken. -/
theorem step_cases {s t : State} (h : step s = .next t) :
    (s.nextInput.rst = true ∧ t = resetCore s.consume) ∨
    (s.nextInput.rst = false ∧ s.halt = true ∧ t = s.consume.quiet) ∨
    (s.nextInput.rst = false ∧ s.halt = false ∧ s.nextInput.valid = false ∧ t = s.consume.quiet) ∨
    (s.nextInput.rst = false ∧ s.halt = false ∧ asBit s.nextInput.value = none ∧
      t = takeInputInvalid s.nextInput.value s.consume) ∨
    (∃ b, s.nextInput.rst = false ∧ s.halt = false ∧ s.nextInput.valid = true ∧ s.nextInput.value = ofBit b ∧
      exec (decodeBit s.pos b) s.consume = .next t) := by
  replace h := (guardStep_eq_next.mp h).2
  unfold select at h
  rcases selectWith_cases s s.nextInput with
    ⟨h1, e⟩ | ⟨h1, h2, e⟩ | ⟨h1, h2, h3, e⟩ | ⟨h1, h2, h3, h4, e⟩ | ⟨b, h1, h2, h3, h4, e⟩ <;> rw [e] at h
  · exact .inl ⟨h1, (Host.Outcome.next.inj h).symm⟩
  · exact .inr (.inl ⟨h1, h2, (Host.Outcome.next.inj h).symm⟩)
  · exact .inr (.inr (.inl ⟨h1, h2, h3, (Host.Outcome.next.inj h).symm⟩))
  · have hw : (Instr.faultInput s.nextInput.value).wellFormed = true := by
      simpa [Instr.wellFormed] using asBit_eq_none.mp h4
    rw [exec, execFaultInput, if_pos hw] at h
    exact .inr (.inr (.inr (.inl ⟨h1, h2, h4, (Host.Outcome.next.inj h).symm⟩)))
  · exact .inr (.inr (.inr (.inr ⟨b, h1, h2, h3, h4, h⟩)))

end Sys2Proof.Machine
end

