-- ==== Sys2Proof/Tests/Slice0.lean ====
section
/-! SUPPORT. Tests: selector words written out from the spec's table, ill-formed terms, vectors of 95_test_vectors.md, and a
witness for every statement that has hypotheses. Expected values are the spec's; each test names its vector or rule. -/

namespace Sys2Proof.Tests

open Sys2Proof Sys2Proof.Machine

/-! ## Helpers -/

/-- The reset state with FORCE_VALUE 0, so that nothing open stands in a test. -/
def s0 : State := { State.reset with forceValue := false }

/-- A framer at position `p` with scratch buffer `b`. -/
def atPos (p : Pos) (b : Bits76) : State := { s0 with pos := p, buf := b }

/-- The outcome's state, if it is a next state, looked at through `f`. -/
def got {α : Type} (f : State → α) (o : Answer) : Option α :=
  match o with
  | .next s => some (f s)
  | .fault _ => none
  | .refused _ => none

/-- Block P (section 4), block Q, and P with block index 1 inverted (PV2). -/
def blockP : Bits76 := 0b1011001000000101100110000110010001100111100010010011010100101000001001000110
def blockQ : Bits76 := 0b0101100111000001000001111100001110111011001111101110011011001011001111000101
def blockPV2 : Bits76 := 0b1111001000000101100110000110010001100111100010010011010100101000001001000110

/-- The information word of P (section 4). -/
def infoP : Bits38 := 0b11011110000011000001000001110011100100
def parityP : Bits38 := 0b10110001000010100001100001001010010110

/-- A settled state whose transients hold the information word of P. -/
def withInfo (i : Bits38) : State := { s0 with pipe := { Pipe.clear with infoBits := i } }

/-! ## WellFormed: an ill-formed term for each check -/

theorem test_wf_syncHit_position : (Instr.syncHit 8 true).wellFormed = false := by decide
theorem test_wf_syncHit_bit : (Instr.syncHit 0 false).wellFormed = false := by decide
theorem test_wf_syncMiss_position : (Instr.syncMiss 8 true).wellFormed = false := by decide
theorem test_wf_syncMiss_bit : (Instr.syncMiss 0 true).wellFormed = false := by decide
theorem test_wf_collect_low : (Instr.collect 7 true).wellFormed = false := by decide
theorem test_wf_collect_high : (Instr.collect 83 true).wellFormed = false := by decide
theorem test_wf_reservedPos : (Instr.reservedPos 83 true).wellFormed = false := by decide
theorem test_wf_faultInput : (Instr.faultInput 0).wellFormed = false ∧ (Instr.faultInput 1).wellFormed = false := by decide
theorem test_ill_formed_refused : exec (.collect 7 true) s0 = .refused .operandOutOfRange := rfl

/-! ## Decoding: words written out bit by bit, `rst halt in_valid pos[6:0] in_bit` (R61, R62) -/

theorem test_decode_reset : decodeSel 0b1_0_1_1010011_0 = .reset := by decide
theorem test_decode_halted : decodeSel 0b0_1_1_0001100_1 = .halted := by decide
theorem test_decode_idle : decodeSel 0b0_0_0_0101000_1 = .idle := by decide
theorem test_decode_syncHit : decodeSel 0b0_0_1_0000101_1 = .syncHit 5 true := by decide
theorem test_decode_syncHit_last : decodeSel 0b0_0_1_0000111_0 = .syncHit 7 false := by decide
theorem test_decode_syncMiss : decodeSel 0b0_0_1_0000011_1 = .syncMiss 3 true := by decide
theorem test_decode_collect_first : decodeSel 0b0_0_1_0001000_1 = .collect 8 true := by decide
theorem test_decode_collect_last : decodeSel 0b0_0_1_1010010_1 = .collect 82 true := by decide
theorem test_decode_complete : decodeSel 0b0_0_1_1010011_1 = .complete true := by decide
theorem test_decode_reservedPos : decodeSel 0b0_0_1_1010100_0 = .reservedPos 84 false := by decide
theorem test_decode_rejects_wide_word : decodeWord 2048 = .error .notASelector := rfl
theorem test_decodeTableWord : decodeTableWord 16 0x1C9 = some (.reservedPos 100 true) := by decide
theorem test_stage_has_no_word : encode .deint = none ∧ encode (.faultInput 2) = none := by decide

/-! ## A word stored in front of the machine runs -/

theorem test_fetch_collect : got State.pos (step (s0.withFetchWord 16 0x110)) = some 9 := by decide
theorem test_fetch_reserved : step (s0.withFetchWord 16 0x1A8) = .refused .reservedPos := rfl
theorem test_fetch_clears_uncollected :
    got State.pos (step ((atPos 80 (BitVec.allOnes 76)).withFetchWord 16 0x114)) = some 11 := by decide
theorem test_fetch_from_reset : got State.pos (step (State.reset.withFetchWord 16 0x101)) = some 1 := by decide

/-! ## The framer and the system operations (section 5) -/

/-- FV6, FV7. -/
theorem test_syncHit : got State.pos (exec (.syncHit 5 true) (atPos 5 0)) = some 6 := by decide
theorem test_syncHit_enters_collecting : got collectingData (exec (.syncHit 7 false) (atPos 7 0)) = some true := by decide

/-- FV4, FV8: the mismatching bit is consumed. -/
theorem test_syncMiss : got State.pos (exec (.syncMiss 1 true) (atPos 1 0)) = some 0 := by decide
theorem test_syncMiss_last : got seekingSync (exec (.syncMiss 7 true) (atPos 7 0)) = some true := by decide

/-- FV9, and R83's example: `buf` = 1,0 then zeros, bit 1 at `pos` 10. -/
theorem test_collect_first : got State.buf (exec (.collect 8 true) (atPos 8 0)) = some (1#76 <<< 75) := by decide +kernel
theorem test_collect_third :
    got State.buf (exec (.collect 10 true) (atPos 10 (0b10#76 <<< 74))) = some (0b101#76 <<< 73) := by decide +kernel

/-- FV13: the word of section 4, and the framer back at its start. -/
theorem test_complete_word :
    got outWord (exec (.complete false) (atPos 83 blockP)) =
      some (some 0xE7A900E403403A4E934DE0C107392C42861296000000000048D22B31B) := by decide +kernel
theorem test_complete_clears :
    got (fun s => (s.pos, s.buf, s.halt)) (exec (.complete true) (atPos 83 blockP)) = some (0, 0, false) := by decide

/-- FV15. -/
theorem test_idle : got State.pos (exec .idle (atPos 40 0)) = some 40 := by decide

/-- FV16, FV21. -/
theorem test_reset : got (fun s => (s.pos, s.buf, s.halt)) (exec .reset { atPos 40 5 with halt := true }) =
    some (0, 0, false) := by decide

/-- FV18: the fault, its value and its cause code; FV20: no second fault. -/
theorem test_faultInput :
    got (fun s => (s.pos, s.halt, faultValue s.out, causeCode s.out)) (step { atPos 12 0 with inputs := [badInput 2] }) =
      some (12, true, some 2, 1) := by decide
theorem test_halted :
    got (fun s => (s.pos, s.halt, s.out)) (step { atPos 12 0 with halt := true, inputs := [badInput 7] }) =
      some (12, true, .none) := by decide

/-- FV17: reset together with a bit discards the bit. -/
theorem test_reset_with_bit :
    got (fun s => (s.pos, s.out)) (step { atPos 83 blockP with inputs := [{ rst := true, valid := true, value := 1 }] }) =
      some (0, .none) := by decide

/-- FV22. -/
theorem test_reservedPos : step { atPos 100 0 with inputs := [bitInput true] } = .refused .reservedPos := rfl

/-- R197: no step from an unreset state, whatever its registers hold, but RESET; R69: none from a reserved position. -/
def unresetState : State := { s0 with wasReset := false, inputs := [bitInput true] }
theorem test_unreset_refused : step unresetState = .refused .unreset := rfl
theorem test_unreset_idle_refused : step { unresetState with inputs := [] } = .refused .unreset := rfl
theorem test_unreset_reset :
    got (fun s => (s.wasReset, s.pos, s.buf)) (step { unresetState with pos := 100, buf := 5, inputs := [resetInput] }) =
      some (true, 0, 0) := by decide
theorem test_stray_bit_refused : step { atPos 12 1 with inputs := [bitInput true] } = .refused .unreset := rfl
theorem test_reserved_idle_refused : step (atPos 100 0) = .refused .reservedPos := rfl
theorem test_reserved_nonbit_refused : step { atPos 84 0 with inputs := [badInput 2] } = .refused .reservedPos := rfl

/-! ## The stages (sections 6 to 8) -/

/-- DV1.4 (block index 37 feeds `raw_bits[73]`), DV5. -/
theorem test_deint_single : deinterleave (1#76 <<< 38) = 1#76 <<< 2 := by decide +kernel
theorem test_deint_P :
    got (fun s => s.pipe.rawBits) (exec .deint { s0 with pipe := { Pipe.clear with block := blockP } }) =
      some 0b1110011110101001000000001110010000000011010000000011101001001110100100110100 := by decide +kernel

/-- DV4: 0, 1 repeated splits into all 0 and all 1. -/
theorem test_split :
    got (fun s => (s.pipe.infoRx, s.pipe.parityBits)) (exec .split { s0 with pipe := { Pipe.clear with
      rawBits := 0x5555555555555555555#76 } }) = some (0, BitVec.allOnes 38) := by decide

/-- PC1 and PC4. -/
theorem test_parcalc :
    got (fun s => s.pipe.calculatedParity) (exec .parcalc { s0 with pipe := { Pipe.clear with infoRx := 0b1101#38 <<< 34 } }) =
      some (0b10111#38 <<< 33) := by decide
theorem test_parcalc_last : parityOf 1 = 1 := by decide

/-- PC5. -/
theorem test_syndrome :
    got (fun s => s.pipe.syndrome) (exec .syndrome { s0 with pipe := { Pipe.clear with
      parityBits := 0b1010#38 <<< 34, calculatedParity := 0b1011#38 <<< 34 } }) = some (0b0001#38 <<< 34) := by decide

/-- PC11: 1s at 3, 4, 5, 6 invert 3, 4, 5; PC8: FORCE with FORCE_VALUE 1. -/
theorem test_correct_run :
    got (fun s => s.pipe.infoBits) (exec .correct { s0 with pipe := { Pipe.clear with syndrome := 0b1111#38 <<< 31 } }) =
      some (0b111#38 <<< 32) := by decide
theorem test_correct_force :
    got (fun s => s.pipe.infoBits) (exec .correct { s0 with correctMode := .force, forceValue := true, pipe :=
      { Pipe.clear with syndrome := 0b11#38 <<< 31 } }) = some (1#38 <<< 32) := by decide

/-- PC9: the last pair; PC10: a single 1 at 37. -/
theorem test_correct_last_pair : correctBits .toggle false 2 3 = 0 := by decide
theorem test_correct_single_37 : correctBits .toggle false 0 1 = 0 := by decide

/-- XV3, XV4. -/
theorem test_xaddr : got (fun s => s.pipe.address) (exec .xaddr (withInfo infoP)) = some 0x1234 := by decide
theorem test_xaddr_first_bit : addressOf (1#38 <<< 37) = 0x4C38 := by decide

/-- XV5, XV6. -/
theorem test_xgroup : got (fun s => s.pipe.groupFlag) (exec .xgroup (withInfo infoP)) = some true := by decide
theorem test_xgroup_one : groupFlagOf (1#38 <<< 21) = false := by decide

/-- XV7, XV9. -/
theorem test_xcmd : got (fun s => s.pipe.command) (exec .xcmd (withInfo infoP)) = some 0x056 := by decide
theorem test_xcmd_zeros : commandOf 0 = 0x0D5 := by decide

/-- XV11, XV12. -/
theorem test_xcsum : got (fun s => s.pipe.checksumReceived) (exec .xcsum (withInfo infoP)) = some 0x18D := by decide
theorem test_xcsum_ones : checksumReceivedOf (BitVec.allOnes 38) = 0 := by decide

/-- R140's example, and the second step (KV9). -/
theorem test_lfsrStep :
    got (fun s => (s.pipe.lfsrA, s.pipe.lfsrB)) (exec (.lfsrStep true) { s0 with pipe :=
      { Pipe.clear with lfsrA := 0x36E, lfsrB := 0x393 } }) = some (0x1B7, 0x224) := by decide
theorem test_lfsrStep_odd : lfsrNextA 0x1B7 = 0x2FE := by decide

/-- CV7, CV2. -/
theorem test_csumGen : got (fun s => s.pipe.checksumComputed) (exec .csumGen (withInfo infoP)) = some 0x18D := by decide
theorem test_csumGen_ones : checksumOf (BitVec.allOnes 38) = 0x149 := by decide

/-- CC2, CC4. -/
theorem test_csumCmp :
    got (fun s => s.pipe.checksumValid) (exec .csumCmp { s0 with pipe :=
      { Pipe.clear with checksumReceived := 0x18D, checksumComputed := 0x18C } }) = some false := by decide
theorem test_csumCmp_zero : checksumValidOf 0 0 = true := by decide

/-- WV6: block Q; WV1's all-zero block is emitted although its checksum fails. -/
theorem test_decode_op :
    got (fun s => outw (wordOf s.pipe)) (exec .decode { s0 with pipe := { Pipe.clear with block := blockQ } }) =
      some 0x3A4DE77AA937740E74372D7E543452EF05F8B90000000002FBBDFFF2F := by decide +kernel
theorem test_decode_zero_block : outw (decodeBlock 0 .force true) = 0x330E26AFFE := by decide +kernel

/-- PV2, PV2a: one information error, TOGGLE repairs it and FORCE with FORCE_VALUE 1 does not. -/
theorem test_decode_toggle :
    outw (decodeBlock blockPV2 .toggle true) = 0xEFA900E403403A4E934DE0C107392C42861296300000000048D22B31B := by
  decide +kernel
theorem test_decode_force :
    outw (decodeBlock blockPV2 .force true) = 0xEFA900E403403A4E934FE0C107392C428612963000000000C8D22B31A := by
  decide +kernel

/-- R156, R160: EMIT offers the word whatever its check says, and a collector counts it. -/
theorem test_emit :
    got (fun s => (outValid s, messageCount s.out, checksumErrorCount s.out)) (exec .emit s0) = some (true, 1, 1) := by decide
theorem test_mode_encoding : modeBit .toggle = false ∧ modeBit .force = true := by decide

/-- Section 4: ENCODE makes P. -/
theorem test_encodeBlock : encodeBlock 0x1234 true 0x056 false = blockP := by decide +kernel

/-! ## Witnesses: every statement's hypotheses can be met, at the boundaries of its clauses -/

theorem witness_ResetOperationClears : resetInput.rst = true := rfl
theorem witness_HaltedIgnoresInput : ({ s0 with halt := true } : State).halt = true ∧ (bitInput true).rst = false := ⟨rfl, rfl⟩
theorem witness_IdleChangesNothing : idleInput.rst = false ∧ s0.halt = false ∧ idleInput.valid = false := ⟨rfl, rfl, rfl⟩
theorem witness_FaultInputHalts :
    (badInput 2).rst = false ∧ s0.halt = false ∧ (badInput 2).valid = true ∧ (badInput 2).value ≠ 0 ∧
      (badInput 2).value ≠ 1 := by decide
theorem witness_FaultInputHalts_negative : (-1 : Int) ≠ 0 ∧ (-1 : Int) ≠ 1 := by decide
theorem witness_FaultCauseCode : (2 : Int) ≠ 0 ∧ (2 : Int) ≠ 1 := by decide

theorem witness_HaltSet :
    exec (.faultInput 2) s0 = .next { s0 with halt := true, out := .fault (.inputInvalid 2) } ∧ s0.halt = false := ⟨rfl, rfl⟩
theorem witness_HaltCleared :
    exec .reset { s0 with halt := true } = .next (resetCore { s0 with halt := true }) ∧
      (resetCore { s0 with halt := true }).halt = false := ⟨rfl, rfl⟩
theorem witness_HaltKeptByHalted :
    exec .halted { s0 with halt := true } = .next { s0 with halt := true, out := .none } ∧
      selectWith { s0 with halt := true } (bitInput true) = .halted := ⟨rfl, by decide⟩
theorem witness_HaltKeptBySelector : exec (decodeSel 0x101) s0 = .next { s0 with pos := 1 } ∧ s0.halt = false := ⟨rfl, rfl⟩

theorem witness_SyncHit_first : [true, false, true, false, true, true, false, false][(atPos 0 0).pos.toNat]? = some true := rfl
theorem witness_SyncHit_last : [true, false, true, false, true, true, false, false][(atPos 7 0).pos.toNat]? = some false := rfl
theorem witness_SyncMiss_first : [true, false, true, false, true, true, false, false][(atPos 0 0).pos.toNat]? = some (!false) := rfl
theorem witness_SyncMiss_last : [true, false, true, false, true, true, false, false][(atPos 7 0).pos.toNat]? = some (!true) := rfl
theorem witness_Collect_first : 8 ≤ (atPos 8 0).pos.toNat ∧ (atPos 8 0).pos.toNat ≤ 82 := by decide
theorem witness_Collect_last : 8 ≤ (atPos 82 0).pos.toNat ∧ (atPos 82 0).pos.toNat ≤ 82 := by decide
theorem witness_Complete : (atPos 83 blockP).pos.toNat = 83 := rfl
theorem witness_Reserved_first : 84 ≤ (atPos 84 0).pos.toNat := by decide
theorem witness_Reserved_last : 84 ≤ (atPos 127 0).pos.toNat := by decide
theorem witness_Reserved_step : 84 ≤ (atPos 84 0).pos.toNat ∧ (atPos 84 0).nextInput.rst = false := by decide
theorem witness_Reserved_nonbit : (2 : Int) ≠ 0 ∧ (2 : Int) ≠ 1 ∧ s0.halt = false := by decide
theorem witness_NextPos : (atPos 83 0).pos.toNat ≤ 83 ∧ nextPos 83 true = 0 ∧ nextPos 82 true = 83 := by decide
theorem witness_NextPos_sync : nextPos 7 false = 8 ∧ nextPos 7 true = 0 ∧ nextPos 8 true = 9 := by decide
theorem witness_FramerIsAccept : (atPos 83 0).pos.toNat ≤ 83 ∧ (accept .toggle false 8 0 true).1 = 9 := by decide
theorem witness_SelectionOrder : (atPos 83 0).pos.toNat ≤ 83 := by decide
theorem witness_SelectionOrder_output :
    exec (selectWith s0 (bitInput true)) s0 = .next { s0 with pos := 1 } ∧ selectWith (atPos 83 0) (bitInput true) = .complete true :=
  ⟨rfl, by decide⟩
theorem witness_XaddrPattern : addressOf infoP = 0x1234 := by decide
theorem witness_StepRunsSelected : ({ s0 with inputs := [bitInput true] } : State).inputs = bitInput true :: [] ∧
    Inv { s0 with inputs := [bitInput true] } := ⟨rfl, by decide⟩
theorem witness_StepRunsSelected_reset : ({ unresetState with inputs := [resetInput] } : State).inputs = resetInput :: [] ∧
    resetInput.rst = true := ⟨rfl, rfl⟩
theorem witness_StepRunsSelected_empty : s0.inputs = [] ∧ Inv s0 := ⟨rfl, by decide⟩

theorem witness_DecodeOfEncode_sync : (Instr.syncHit 7 false).WellFormed ∧ encode (.syncHit 7 false) = some 0x10E := by decide
theorem witness_DecodeOfEncode_collect : (Instr.collect 82 true).WellFormed ∧ encode (.collect 82 true) = some 0x1A5 := by decide
theorem witness_DecodeOfEncode_reserved :
    (Instr.reservedPos 127 true).WellFormed ∧ encode (.reservedPos 127 true) = some 0x1FF := by decide

theorem witness_SingleErrorCases : syndromeOf parityP (parityOf infoP) = 0 := by decide
theorem witness_SingleErrorCases_last : repaired false (flipElem infoP 36) parityP = infoP := by decide +kernel
theorem witness_MultipleErrorCases : (33 : Nat) + 3 ≤ 36 ∧ (34 : Nat) ≤ 34 ∧ (36 : Nat) ≤ 36 := by decide
theorem witness_MultipleErrorCases_run :
    (2 ≤ 2 ∧ 36 + 2 ≤ 38) ∧ ∀ i < 38, 36 ≤ i → (3#38).getMsbD i = true := by decide
theorem witness_ZeroSyndromeOneWay : (37 : Nat) < 38 ∧ (36 : Nat) ≤ 36 := by decide
theorem witness_BlockErrorLeavesFields : blockSyndrome blockP = 0 := by decide +kernel
theorem witness_ChecksumDetects : checksumValidOf (checksumReceivedOf infoP) (checksumOf infoP) = true := by decide
theorem witness_ChecksumDetects_covered :
    checksumOf (flipElem infoP 26) = checksumOf infoP ^^^ 0x04B ∧ checksumReceivedOf (flipElem infoP 26) = 0x18D := by
  decide
theorem witness_ChecksumDetects_received :
    checksumReceivedOf (flipElem infoP 27) = 0x18D ^^^ 0x200 ∧ checksumReceivedOf (flipElem infoP 36) = 0x18D ^^^ 0x001 ∧
      checksumOf (flipElem infoP 27) = 0x18D ∧ checksumOf (flipElem infoP 36) = 0x18D := by decide +kernel
theorem witness_ChecksumDetects_uncovered :
    checksumReceivedOf (flipElem infoP 37) = 0x18D ∧ checksumOf (flipElem infoP 37) = 0x18D := by decide +kernel
theorem witness_ChecksumIsXor : (26 : Nat) < 27 ∧ checksumK.getD 26 0 = 0x04B := by decide
theorem witness_ChecksumConstants_nonzero : ({ s0 with pipe := { Pipe.clear with lfsrA := 0x36E } } : State).pipe.lfsrA ≠ 0 := by decide
theorem witness_StagesPermuted : [Instr.csumGen, .xcsum, .xcmd, .xgroup, .xaddr].Perm fieldStages := by decide
theorem witness_DecodeOfEncodedBlock : ∃ W, W = decodeBlock (encodeBlock 0xBEEF false 0x3FF true) .force false := ⟨_, rfl⟩

theorem witness_BlockAlone_buffers :
    (∀ k < 75, (atPos 83 blockP).buf.getMsbD k = (atPos 0 blockP).buf.getMsbD k) ∧
      (atPos 83 blockP).correctMode = (atPos 0 blockP).correctMode ∧
      (atPos 83 blockP).forceValue = (atPos 0 blockP).forceValue := by decide
theorem witness_BlockAlone_answers : (got State.pos (exec (.complete true) (atPos 83 blockP))).isSome = true ∧
    (got State.pos (exec (.complete true) (atPos 0 blockP))).isSome = true := by decide
theorem witness_WordOnlyAtFrameEnd :
    got (fun s => messageCount s.out) (step { atPos 83 blockP with inputs := [bitInput false] }) = some 1 := by decide
theorem witness_FrameEmits :
    Inv { s0 with inputs := frameInputs blockP ++ [idleInput] } ∧ s0.pos = 0 ∧ s0.halt = false ∧
      ({ s0 with inputs := frameInputs blockP ++ [idleInput] } : State).inputs = frameInputs blockP ++ [idleInput] :=
  ⟨⟨rfl, by decide⟩, rfl, rfl, rfl⟩
theorem witness_StepKeepsInv : Inv (atPos 82 0) ∧
    got State.pos (step { atPos 82 0 with inputs := [bitInput true] }) = some 83 := by decide
theorem witness_StepAnswers_inv : Inv (atPos 83 0) := by decide
theorem witness_StepAnswers_reset : ({ unresetState with inputs := [resetInput] } : State).nextInput.rst = true := rfl
theorem witness_StepAnswers_unreset : ¬ Inv unresetState ∧ unresetState.nextInput.rst = false := by decide
theorem witness_StepAnswers_stray : ¬ Inv (atPos 82 1) ∧ (atPos 82 1).nextInput.rst = false := by decide
theorem witness_StepAnswers_reserved : ¬ Inv (atPos 84 0) ∧ (atPos 84 0).nextInput.rst = false := by decide
theorem witness_TransientsDropped : Settled s0 ∧ got State.pos (step s0) = some 0 := by decide
theorem witness_ParametersNeverWritten : exec .reset s0 = .next (resetCore s0) := rfl
theorem witness_OneWordPer84Steps :
    (runOutputs 1 { atPos 83 blockP with inputs := [bitInput false] }).map (fun r => wordCount r.1) = some 1 := by
  decide
theorem witness_BitInputsNeverHalt :
    s0.halt = false ∧ (∀ x ∈ [bitInput true, resetInput], x.value = 0 ∨ x.value = 1) ∧
      (runOutputs 2 { s0 with inputs := [bitInput true, resetInput] }).isSome = true := by decide

end Sys2Proof.Tests
end

/-! The parameters CORRECT_MODE and FORCE_VALUE (00_scope.md R6, 10_state.md R27): no operation writes them, and
FORCE_VALUE has no effect in TOGGLE mode. -/

namespace Sys2Proof.Machine

/-- An operation that checks its operands answers a next state exactly when they pass. -/
theorem ite_refused_eq_next {c : Prop} [Decidable c] {u t : State} {r : Refusal} :
    (if c then .next u else .refused r : Answer) = .next t ↔ c ∧ u = t := by
  by_cases hc : c <;> simp [hc]

/-- The frame of every operation: it writes the framer's registers, the transients or the output, and no parameter
(10_state.md R27). -/
theorem exec_keeps_parameters {i : Instr} {s t : State} (h : exec i s = .next t) :
    t.correctMode = s.correctMode ∧ t.forceValue = s.forceValue := by
  cases i with
  | syncHit | syncMiss | collect | faultInput =>
    obtain ⟨-, rfl⟩ := ite_refused_eq_next.mp h
    exact ⟨rfl, rfl⟩
  | reservedPos => cases h
  | complete bit => cases (execComplete_eq bit s).symm.trans h; exact ⟨rfl, rfl⟩
  | csumGen => cases (execCsumGen_eq s).symm.trans h; exact ⟨rfl, rfl⟩
  | decode => cases (execDecode_eq s).symm.trans h; exact ⟨rfl, rfl⟩
  | _ => cases h; exact ⟨rfl, rfl⟩

@[simp] theorem corrected_toggle (v x : Bool) : corrected .toggle v x = !x := rfl

/-- TOGGLE mode never reads FORCE_VALUE in the correction pass (42_parity_corrector.md R113). -/
theorem correctBits_toggle_forceValue (v v' : Bool) (info syn : Bits38) :
    correctBits .toggle v info syn = correctBits .toggle v' info syn := by
  simp only [correctBits, corrected_toggle]

/-- FORCE_VALUE reaches a word only through its corrected information bits, so TOGGLE mode does not read it (R6, R113). -/
theorem decodeBlock_toggle_forceValue (block : Bits76) (v v' : Bool) :
    decodeBlock block .toggle v = decodeBlock block .toggle v' := by
  have hinfo : blockInfo block .toggle v = blockInfo block .toggle v' := correctBits_toggle_forceValue v v' _ _
  simp only [decodeBlock, hinfo]

end Sys2Proof.Machine

namespace Sys2Proof.Proofs
open Sys2Proof.Machine

/-- Settles O58: every operation keeps the two parameters, and TOGGLE mode never reads FORCE_VALUE. -/
theorem parametersNeverWritten : Obligations.ParametersNeverWritten :=
  ⟨fun _ _ _ => exec_keeps_parameters, decodeBlock_toggle_forceValue⟩

end Sys2Proof.Proofs

/-! What the operations and steps do to `halt` (10_state.md R24), when a word is emitted (40_framer.md R90), and what becomes of
the transients (10_state.md R20). -/

namespace Sys2Proof.Machine

/-- What every operation does to `halt`: RESET clears it, FAULT.INPUT sets it, the others keep it (10_state.md R24). -/
theorem exec_halt_cases {i : Instr} {s t : State} (h : exec i s = .next t) :
    (i = .reset ∧ t.halt = false) ∨ (∃ v, i = .faultInput v ∧ t.halt = true) ∨ t.halt = s.halt := by
  cases i with
  | reset => cases h; exact .inl ⟨rfl, rfl⟩
  | faultInput v =>
    obtain ⟨-, rfl⟩ := ite_refused_eq_next.mp h
    exact .inr (.inl ⟨v, rfl, rfl⟩)
  | syncHit | syncMiss | collect =>
    obtain ⟨-, rfl⟩ := ite_refused_eq_next.mp h
    exact .inr (.inr rfl)
  | reservedPos => cases h
  | complete bit => cases (execComplete_eq bit s).symm.trans h; exact .inr (.inr rfl)
  | csumGen => cases (execCsumGen_eq s).symm.trans h; exact .inr (.inr rfl)
  | decode => cases (execDecode_eq s).symm.trans h; exact .inr (.inr rfl)
  | _ => cases h; exact .inr (.inr rfl)

/-- While `halt` is 1 only HALTED or RESET is selected, whatever is presented (10_state.md R24, 60_exceptions.md R178). -/
theorem selectWith_of_halt {s : State} (hs : s.halt = true) (x : Input) :
    selectWith s x = .halted ∨ (x.rst = true ∧ selectWith s x = .reset) := by
  rcases selectWith_cases s x with h | ⟨-, -, e⟩ | ⟨-, hn, -⟩ | ⟨-, hn, -⟩ | ⟨_, -, hn, -⟩
  · exact .inr h
  · exact .inl e
  all_goals simp [hs] at hn

/-- Among the framer's operations on a bit, the one that emits a word is that of the frame's last position (40_framer.md R84). -/
theorem pos_of_exec_decodeBit_word {s t : State} {p : Pos} {b : Bool} {w : ControlWord}
    (h : exec (decodeBit p b) s = .next t) (hw : t.out = .word w) : p = lastPos := by
  rcases exec_decodeBit_cases h with ⟨-, -, rfl⟩ | ⟨-, -, rfl⟩ | ⟨-, -, rfl⟩ | ⟨hp, -⟩
  · cases hw
  · cases hw
  · cases hw
  · exact hp

/-- A selected operation emits a word only where a frame ends (40_framer.md R90 (a)). The operation may run on the state with its
input taken. -/
theorem pos_of_exec_selectWith_word {s u t : State} {x : Input} {w : ControlWord}
    (h : exec (selectWith s x) u = .next t) (hw : t.out = .word w) : s.pos = lastPos := by
  rcases selectWith_cases s x with ⟨-, e⟩ | ⟨-, -, e⟩ | ⟨-, -, -, e⟩ | ⟨-, -, -, -, e⟩ | ⟨b, -, -, -, -, e⟩ <;> rw [e] at h
  · cases h; cases hw
  · cases h; cases hw
  · cases h; cases hw
  · obtain ⟨-, rfl⟩ := ite_refused_eq_next.mp h
    cases hw
  · exact pos_of_exec_decodeBit_word h hw

/-- The framer's operations on a bit keep the transients or, at a frame's end, clear them (10_state.md R20). -/
theorem exec_decodeBit_settled {s t : State} {p : Pos} {b : Bool} (hs : Settled s)
    (h : exec (decodeBit p b) s = .next t) : Settled t := by
  rcases exec_decodeBit_cases h with ⟨-, -, rfl⟩ | ⟨-, -, rfl⟩ | ⟨-, -, rfl⟩ | ⟨-, rfl⟩
  · exact hs
  · exact hs
  · exact hs
  · rfl

/-- Every step leaves the transients cleared where it found them so (10_state.md R20, log entry 2). -/
theorem step_settled {s t : State} (hs : Settled s) (h : step s = .next t) : Settled t := by
  rcases step_cases h with ⟨-, rfl⟩ | ⟨-, -, rfl⟩ | ⟨-, -, -, rfl⟩ | ⟨-, -, -, rfl⟩ | ⟨b, -, -, -, -, he⟩
  · rfl
  · exact hs
  · exact hs
  · exact hs
  · exact exec_decodeBit_settled (s := s.consume) hs he

end Sys2Proof.Machine

namespace Sys2Proof.Proofs
open Sys2Proof.Machine

/-- Settles O7: the three effects an operation can have on `halt`, and the selection while it is 1. -/
theorem haltSetAndClearedOnlyBy : Obligations.HaltSetAndClearedOnlyBy := by
  refine ⟨rfl, fun i s t h => ?_, fun s x hs => selectWith_of_halt hs x, fun s t h => (Host.Outcome.next.inj h).symm⟩
  rcases exec_halt_cases h with ⟨hi, ht⟩ | ⟨v, hi, ht⟩ | hkeep
  · simp [hi, ht]
  · simp [hi, ht]
  · simp +contextual [hkeep]

/-- Settles O57: a step keeps the transients cleared; COMPLETE and RESET end with them cleared whatever they held. -/
theorem transientsDropped : Obligations.TransientsDropped :=
  ⟨fun _ _ => step_settled, fun s bit => ⟨_, execComplete_eq bit s, rfl⟩, fun s => ⟨resetCore s, rfl, rfl⟩⟩

/-- Settles O1: the reset values, no word on the first step because `pos` is 0 there, and RESET from every state. -/
theorem resetStateHoldsResetValues : Obligations.ResetStateHoldsResetValues := by
  refine ⟨rfl, fun k _ => BitVec.getMsbD_zero, rfl, rfl, fun x t h w hw => ?_,
    fun s => ⟨resetCore s, rfl, rfl, fun k _ => BitVec.getMsbD_zero, rfl, rfl, rfl⟩⟩
  have hpos : State.reset.pos = lastPos := pos_of_exec_selectWith_word h hw
  exact absurd hpos (by decide)

end Sys2Proof.Proofs

/-! The stages as lists of operations: COMPLETE and DECODE are `execAll` over the order of 30_encoding.md R71, and no selector
word names a stage. -/

namespace Sys2Proof.Machine

@[simp] theorem andThen_next_right (o : Answer) : andThen o .next = o := by cases o <;> rfl

theorem execAll_append (l m : List Instr) (s : State) :
    execAll (l ++ m) s = andThen (execAll l s) (execAll m) := by
  induction l generalizing s with
  | nil => rfl
  | cons i l ih =>
    calc andThen (exec i s) (execAll (l ++ m))
      _ = andThen (exec i s) fun t => andThen (execAll l t) (execAll m) := congrArg _ (funext ih)
      _ = andThen (andThen (exec i s) (execAll l)) (execAll m) := (andThen_assoc _ _ _).symm

theorem execAll_singleton (i : Instr) (s : State) : execAll [i] s = exec i s := andThen_next_right (exec i s)

theorem execAll_frontStages (s : State) : execAll frontStages s = runFrontStages s := rfl

theorem execAll_backStages (s : State) : execAll (fieldStages ++ [.csumCmp]) s = runBackStages s := rfl

/-- DECODE is the first eleven stages (R71, 45_decode_pipeline.md R155). -/
theorem execAll_decodeStages (s : State) : execAll (frontStages ++ fieldStages ++ [.csumCmp]) s = execDecode s := by
  rw [List.append_assoc, execAll_append, execAll_frontStages, funext execAll_backStages, execDecode]

/-- All twelve stages are DECODE and then EMIT. -/
theorem execAll_allStages (s : State) :
    execAll (frontStages ++ fieldStages ++ [.csumCmp, .emit]) s = andThen (execDecode s) execEmit := by
  have hsplit : frontStages ++ fieldStages ++ [.csumCmp, .emit] = frontStages ++ fieldStages ++ [.csumCmp] ++ [.emit] := rfl
  have hemit : execAll [.emit] = execEmit := funext (execAll_singleton .emit)
  rw [hsplit, execAll_append, execAll_decodeStages, hemit]

/-- COMPLETE is the twelve stages on the completed block, and then the framer's return to its start (R71, 40_framer.md R84). -/
theorem execComplete_eq_execAll (bit : Bool) (s : State) :
    execComplete bit s =
      andThen (execAll (frontStages ++ fieldStages ++ [.csumCmp, .emit]) (loadBlock s (completedBlock s.buf bit)))
        fun u => .next (finishFrame u) := by
  rw [execAll_allStages, andThen_assoc, execComplete]

theorem encode_decodeBit_isSome (p : Pos) (b : Bool) : (encode (decodeBit p b)).isSome := by
  rcases decodeBit_cases p b with ⟨-, -, e⟩ | ⟨-, -, e⟩ | ⟨-, -, e⟩ | ⟨-, e⟩ | ⟨-, e⟩ <;> rw [e] <;> rfl

/-- What a selector word selects has a word of its own (R62). -/
theorem encode_decodeSel_isSome (w : Sel) : (encode (decodeSel w)).isSome := by
  unfold decodeSel
  split_ifs
  · rfl
  · rfl
  · rfl
  · exact encode_decodeBit_isSome _ _

/-- No stage has a word (R71). -/
theorem encode_of_mem_stages {i : Instr} (h : i ∈ frontStages ++ fieldStages ++ [.csumCmp, .emit]) : encode i = none :=
  (by decide : ∀ j ∈ frontStages ++ fieldStages ++ [.csumCmp, .emit], encode j = none) i h

end Sys2Proof.Machine

namespace Sys2Proof.Proofs
open Sys2Proof.Machine

/-- Settles O47: COMPLETE only adds the framer's return, which keeps the output of the stages, and no stage is selected
because none has a word. -/
theorem stagesRunInOrder : Obligations.StagesRunInOrder := by
  refine ⟨fun s bit => ?_, execAll_decodeStages, fun w i hi hw => ?_⟩
  · obtain ⟨t, ht, hfinish⟩ := andThen_eq_next.mp ((execComplete_eq_execAll bit s).symm.trans (execComplete_eq bit s))
    exact ⟨t, finishFrame t, ht, (execComplete_eq bit s).trans hfinish.symm, rfl⟩
  · have hsome : (encode i).isSome := hw ▸ encode_decodeSel_isSome w
    simp [encode_of_mem_stages hi] at hsome

end Sys2Proof.Proofs

/-! The reserved positions (30_encoding.md R69), and the fault that a value which is no bit raises (60_exceptions.md R170). -/

namespace Sys2Proof.Machine

/-- A bit at a reserved position selects RESERVED.POS (R69). -/
theorem decodeBit_of_lastPos_lt {p : Pos} (h : lastPos < p) (b : Bool) : decodeBit p b = .reservedPos p b := by
  unfold lastPos at h
  have hsync : ¬ p < nSync := by unfold nSync; bv_omega
  have hcollect : ¬ p < lastPos := by unfold lastPos; bv_omega
  have hlast : p ≠ lastPos := by unfold lastPos; bv_omega
  rw [decodeBit, if_neg hsync, if_neg hcollect, if_neg hlast]

/-- From a reserved position every step but RESET is refused as one (R69, 70_reset_and_hazards.md R197). -/
theorem step_of_lastPos_lt {s : State} (hp : lastPos < s.pos) (hr : s.nextInput.rst = false) :
    step s = .refused .reservedPos := by
  have hInv : ¬ Inv s := fun ⟨_, hle, _⟩ => BitVec.not_lt.mpr hle hp
  rw [step, guardStep_refuses hr hInv, unresetRefusal, if_pos hp]

theorem selectWith_of_asBit_eq_none {s : State} {x : Input} (hr : x.rst = false) (hs : s.halt = false)
    (hx : x.valid = true) (hv : asBit x.value = none) : selectWith s x = .faultInput x.value := by
  simp [selectWith, hr, hs, hx, hv]

theorem execFaultInput_of_asBit_eq_none {v : Int} (hv : asBit v = none) (s : State) :
    execFaultInput v s = .next (takeInputInvalid v s) :=
  if_pos (by simpa [Instr.wellFormed] using asBit_eq_none.mp hv)

end Sys2Proof.Machine

namespace Sys2Proof.Proofs
open Sys2Proof.Machine

/-- Settles O12: the selection and refusal at a reserved position, the refusal of its steps, and the fault of a value that is no
bit. -/
theorem reservedPositionRefused : Obligations.ReservedPositionRefused := by
  refine ⟨fun s bit hp => ⟨?_, rfl⟩, fun s hp hr => step_of_lastPos_lt hp hr, fun s v h0 h1 hs => ?_⟩
  · simp [decodeSel_selWord, decodeBit_of_lastPos_lt hp]
  · have hv : asBit v = none := asBit_eq_none.mpr ⟨h0, h1⟩
    have hsel : selectWith s ⟨false, true, v⟩ = .faultInput v := selectWith_of_asBit_eq_none rfl hs rfl hv
    rw [hsel]
    exact ⟨_, execFaultInput_of_asBit_eq_none hv s, rfl⟩

end Sys2Proof.Proofs

/-! The packed words: SEL as a number (30_encoding.md R61) and the slices of OUTW (R67). -/

namespace Sys2Proof.Machine

/-- A packed word as a number: the upper part is scaled by the width of the lower. -/
theorem toNat_append_eq_add {m n : Nat} (x : BitVec m) (y : BitVec n) :
    (x ++ y).toNat = x.toNat * 2 ^ n + y.toNat := by
  rw [BitVec.toNat_append, ← Nat.shiftLeft_add_eq_or_of_lt y.isLt, Nat.shiftLeft_eq]

theorem selWord_toNat (rst halt valid : Bool) (pos : Pos) (bit : Bool) :
    (selWord rst halt valid pos bit).toNat =
      rst.toNat * 1024 + halt.toNat * 512 + valid.toNat * 256 + pos.toNat * 2 + bit.toNat := by
  simp only [selWord, toNat_append_eq_add, BitVec.toNat_ofBool]
  omega

/-- The sequences of OUTW: a slice skips the fields packed below it and ends under those packed above it (R67). -/
theorem outw_slices (w : ControlWord) :
    (outw w).extractLsb' 152 76 = w.rawBits ∧ (outw w).extractLsb' 114 38 = w.infoBits ∧
    (outw w).extractLsb' 76 38 = w.parityBits ∧ (outw w).extractLsb' 38 38 = w.syndrome ∧
    (outw w).extractLsb' 22 16 = w.address ∧ (outw w).extractLsb' 11 10 = w.command ∧
    (outw w).extractLsb' 1 10 = w.checksumReceived := by
  simp (disch := omega) only [outw, BitVec.extractLsb'_append_eq_of_le, BitVec.extractLsb'_append_eq_of_add_le,
    Nat.reduceSub, BitVec.extractLsb'_eq_self, and_self]

/-- The Booleans of OUTW, and its sequences' first element most significant (R67). -/
theorem outw_bits (w : ControlWord) :
    (outw w).getLsbD 21 = w.groupFlag ∧ (outw w).getLsbD 0 = w.checksumValid ∧
    (outw w).getLsbD 227 = w.rawBits.getMsbD 0 ∧ (outw w).getLsbD 38 = w.syndrome.getMsbD 37 := by
  simp only [outw, boolBit, BitVec.getLsbD_append]
  simp [BitVec.getMsbD_eq_getLsbD]

end Sys2Proof.Machine

namespace Sys2Proof.Proofs
open Sys2Proof.Machine

/-- Settles O17: the number of SEL, and its fields read back. -/
theorem selectorWordNumber : Obligations.SelectorWordNumber := fun rst halt valid pos bit =>
  ⟨selWord_toNat rst halt valid pos bit, selRst_selWord .., selHalt_selWord .., selValid_selWord .., selPos_selWord ..,
    selBit_selWord ..⟩

/-- Settles O50: each field's slice of OUTW. -/
theorem outwFieldPositions : Obligations.OutwFieldPositions := by
  intro w
  obtain ⟨hraw, hinfo, hparity, hsyndrome, haddress, hcommand, hchecksum⟩ := outw_slices w
  obtain ⟨hgroup, hvalid, hrawFirst, hsyndromeLast⟩ := outw_bits w
  exact ⟨hraw, hinfo, hparity, hsyndrome, haddress, hgroup, hcommand, hchecksum, hvalid, hrawFirst, hsyndromeLast⟩

end Sys2Proof.Proofs

/-! The framer's four operations on a bit, each with its selection and its effect (40_framer.md R81 to R84), and the edge
without a bit (R85). -/

namespace Sys2Proof.Machine

theorem syncPattern_length : syncPattern.length = 8 := rfl

theorem lt_nSync_iff {p : Pos} : p < nSync ↔ p.toNat < 8 := Iff.rfl

theorem lt_lastPos_iff {p : Pos} : p < lastPos ↔ p.toNat < 83 := Iff.rfl

/-- The pattern has a bit at positions 0 to 7 only, and it is the one `syncBit` reads (R81). -/
theorem syncPattern_getElem?_eq_some {p : Pos} {b : Bool} :
    syncPattern[p.toNat]? = some b ↔ p.toNat < 8 ∧ b = syncBit p := by
  constructor
  · intro h
    obtain ⟨hp, -⟩ := List.getElem?_eq_some_iff.mp h
    exact ⟨hp, by rw [syncBit, List.getD_eq_getElem?_getD, h, Option.getD_some]⟩
  · rintro ⟨hp, rfl⟩
    rw [syncBit, List.getD_eq_getElem _ _ hp]
    exact List.getElem?_eq_getElem hp

/-- On an accepted bit the selector word selects what position and bit decide (30_encoding.md R62). -/
theorem decodeSel_selWord_bit (p : Pos) (b : Bool) : decodeSel (selWord false false true p b) = decodeBit p b := by
  simp [decodeSel_selWord]

/-- R80 tests 5 to 7 as tests of the number `pos`. -/
theorem decodeBit_eq_ite {p : Pos} (h : p.toNat ≤ 83) (b : Bool) :
    decodeBit p b =
      if p.toNat < 8 then (if b = syncBit p then .syncHit p b else .syncMiss p b)
      else if p.toNat < 83 then .collect p b
      else .complete b := by
  have hlast : p = lastPos ↔ p.toNat = 83 := BitVec.toNat_inj.symm
  simp only [decodeBit, lt_nSync_iff, lt_lastPos_iff, hlast]
  split_ifs with _ _ _ h83
  · rfl
  · rfl
  · rfl
  · rfl
  · omega

theorem execSyncHit_eq {p : Pos} {b : Bool} (hp : p.toNat < 8) (hb : b = syncBit p) (s : State) :
    execSyncHit p b s = .next { s with pos := p + 1, out := .none } :=
  if_pos (by simp [Instr.wellFormed, hb, lt_nSync_iff.mpr hp])

theorem execSyncMiss_eq {p : Pos} {b : Bool} (hp : p.toNat < 8) (hb : b ≠ syncBit p) (s : State) :
    execSyncMiss p b s = .next { s with pos := 0, buf := 0, out := .none } :=
  if_pos (by simp [Instr.wellFormed, hb, lt_nSync_iff.mpr hp])

theorem execCollect_eq {p : Pos} (hlow : 8 ≤ p.toNat) (hhigh : p.toNat < 83) (b : Bool) (s : State) :
    execCollect p b s = .next { s with pos := p + 1, buf := setElem s.buf (p.toNat - 8) b, out := .none } :=
  if_pos (by simp [Instr.wellFormed, show nSync ≤ p from hlow, lt_lastPos_iff.mpr hhigh])

/-- The counter does not wrap below the reserved positions. -/
theorem toNat_pos_add_one {p : Pos} (h : p.toNat ≤ 83) : (p + 1).toNat = p.toNat + 1 := by
  bv_omega

end Sys2Proof.Machine

namespace Sys2Proof.Proofs
open Sys2Proof.Machine

/-- Settles O4: the order of the selector's tests reaches IDLE, which writes the output alone. -/
theorem idleChangesNothing : Obligations.IdleChangesNothing := by
  refine fun s x => ⟨fun hr hh hv => ?_, rfl⟩
  rcases selectWith_cases s x with ⟨h, -⟩ | ⟨-, h, -⟩ | ⟨-, -, -, e⟩ | ⟨-, -, h, -⟩ | ⟨_, -, -, h, -⟩
  · simp [hr] at h
  · simp [hh] at h
  · exact e
  all_goals simp [hv] at h

/-- Settles O8: the pattern bit selects SYNC.HIT, which advances the counter. -/
theorem syncHitAdvances : Obligations.SyncHitAdvances := by
  intro s bit h
  obtain ⟨hp, hb⟩ := syncPattern_getElem?_eq_some.mp h
  refine ⟨?_, _, execSyncHit_eq hp hb s, toNat_pos_add_one (by omega), rfl⟩
  rw [decodeSel_selWord_bit, decodeBit_eq_ite (by omega), if_pos hp, if_pos hb]

/-- Settles O9: the other bit selects SYNC.MISS, which restarts the search. -/
theorem syncMissRestarts : Obligations.SyncMissRestarts := by
  intro s bit h
  obtain ⟨hp, hnot⟩ := syncPattern_getElem?_eq_some.mp h
  have hb : bit ≠ syncBit s.pos := by simp [← hnot]
  refine ⟨?_, execSyncMiss_eq hp hb s⟩
  rw [decodeSel_selWord_bit, decodeBit_eq_ite (by omega), if_pos hp, if_neg hb]

/-- Settles O10: from 8 to 82 either bit selects COLLECT, which writes one element of the buffer. -/
theorem collectAppendsBit : Obligations.CollectAppendsBit := by
  intro s bit hlow hhigh
  refine ⟨?_, _, execCollect_eq hlow (by omega) bit s, toNat_pos_add_one (by omega), fun k hk => ?_, rfl⟩
  · rw [decodeSel_selWord_bit, decodeBit_eq_ite (by omega), if_neg (by omega), if_pos (by omega)]
  · rw [setElem_getMsbD, decide_eq_true hk, Bool.true_and]

/-- Settles O11: at 83 either bit selects COMPLETE, whose block is the 75 collected bits and this one. -/
theorem completeEmitsDecodedBlock : Obligations.CompleteEmitsDecodedBlock := by
  intro s bit hpos
  refine ⟨?_, _, completedBlock s.buf bit, execComplete_eq bit s, fun k hk => ?_, by simp, rfl⟩
  · rw [decodeSel_selWord_bit, decodeBit_eq_ite (by omega), if_neg (by omega), if_neg (by omega)]
  · simp [hk, show k < 76 by omega]

end Sys2Proof.Proofs

/-! The framer as the one function `accept` (40_framer.md R91), and the next `pos` it gives (R86). -/

namespace Sys2Proof.Machine

/-- The block of `accept`, buffer and bit written one after the other, is that of COMPLETE (R84, R91). -/
theorem slice_append_eq_completedBlock (buf : Bits76) (bit : Bool) :
    (slice buf 0 75 ++ BitVec.ofBool bit : Bits76) = completedBlock buf bit := by
  refine ext_getMsbD fun k hk => BitVec.getMsbD_append.trans ?_
  by_cases h : k < 75
  · simp [h, hk]
  · simp [show k = 75 by omega]

/-- The operation a bit selects does what `accept` says, and writes nothing else but the transients (R91). -/
theorem exec_decodeBit_accept (s : State) (bit : Bool) (h : s.pos.toNat ≤ 83) :
    ∃ t, exec (decodeBit s.pos bit) s = .next t ∧
      (t.pos, t.buf, t.out) = accept s.correctMode s.forceValue s.pos s.buf bit ∧
      t = { s with pos := t.pos, buf := t.buf, out := t.out, pipe := t.pipe } := by
  rw [decodeBit_eq_ite h]
  simp only [accept, lt_nSync_iff, lt_lastPos_iff, slice_append_eq_completedBlock]
  split_ifs with h8 hb h83
  · exact ⟨_, execSyncHit_eq h8 hb s, rfl, rfl⟩
  · exact ⟨_, execSyncMiss_eq h8 hb s, rfl, rfl⟩
  · exact ⟨_, execCollect_eq (by omega) h83 bit s, rfl, rfl⟩
  · exact ⟨_, execComplete_eq bit s, rfl, rfl⟩

/-- `accept` moves `pos` as R86 says, whatever the buffer and the parameters hold. -/
theorem accept_pos_toNat (mode : CorrectMode) (fv : Bool) {p : Pos} (h : p.toNat ≤ 83) (buf : Bits76) (bit : Bool) :
    (accept mode fv p buf bit).1.toNat = nextPos p bit := by
  simp only [accept, nextPos, lt_nSync_iff, lt_lastPos_iff, ← Nat.lt_succ_iff, Nat.succ_eq_add_one, Nat.reduceAdd]
  split_ifs
  · exact toNat_pos_add_one h
  · rfl
  · exact toNat_pos_add_one h
  · rfl

end Sys2Proof.Machine

namespace Sys2Proof.Proofs
open Sys2Proof.Machine

/-- Settles O14: the four effects of a bit, side by side with the branches of `accept`. -/
theorem framerIsAccept : Obligations.FramerIsAccept := by
  intro s bit h
  rw [decodeSel_selWord_bit]
  exact exec_decodeBit_accept s bit h

/-- Settles O13: the next `pos` is that of `accept`, which looks at `pos` and the bit alone for it. -/
theorem nextPosOfBit : Obligations.NextPosOfBit := by
  intro s bit h
  obtain ⟨t, ht, haccept, -⟩ := exec_decodeBit_accept s bit h
  rw [decodeSel_selWord_bit]
  have hpos : t.pos = (accept s.correctMode s.forceValue s.pos s.buf bit).1 := congrArg Prod.fst haccept
  exact ⟨t, ht, hpos ▸ accept_pos_toNat _ _ h _ _⟩

end Sys2Proof.Proofs

/-! Selection and the step: the order of tests of 40_framer.md R80, and what a step takes from the input list
(20_memory.md R50). -/

namespace Sys2Proof.Machine

/-- A presented bit selects through its selector word, whatever the other pins are (30_encoding.md R61). -/
theorem selectWith_ofBit (s : State) (rst valid bit : Bool) :
    selectWith s ⟨rst, valid, ofBit bit⟩ = decodeSel (selWord rst s.halt valid s.pos bit) := by
  simp [selectWith]

/-- With a valid bit, no reset and no halt, position and bit select (R80 tests 5 to 7). -/
theorem selectWith_bitInput {s : State} (hs : s.halt = false) (bit : Bool) :
    selectWith s (bitInput bit) = decodeBit s.pos bit := by
  rw [bitInput, selectWith_ofBit, hs, decodeSel_selWord_bit]

/-- An edge on which nothing is offered is IDLE, or HALTED in a halted machine (R80 tests 2 and 3). -/
theorem selectWith_noInput (s : State) : selectWith s noInput = if s.halt then .halted else .idle := by
  simp [noInput, selectWith, asBit, decodeSel_selWord]

/-- A step that may be taken is the operation its first pending input selects, on the state without that input (R50, R197). -/
theorem step_of_inputs_cons {s : State} {x : Input} {rest : List Input} (hi : s.inputs = x :: rest)
    (h : Inv s ∨ x.rst = true) : step s = exec (selectWith s x) { s with inputs := rest } := by
  have hx : s.nextInput = x := by simp [State.nextInput, hi]
  rw [step_eq_exec (hx ▸ h.symm), select, hx, consume_eq, hi, List.tail_cons]

theorem step_of_inputs_nil {s : State} (hi : s.inputs = []) (h : Inv s) :
    step s = exec (if s.halt then .halted else .idle) s := by
  have hx : s.nextInput = noInput := by simp [State.nextInput, hi]
  have hs : s.consume = s := by rw [consume_eq, hi, List.tail_nil, ← hi]
  rw [step_eq_exec (.inr h), select, hx, selectWith_noInput, hs]

/-- The operations on a bit output nothing, short of COMPLETE. -/
theorem out_of_exec_decodeBit {s t : State} {p : Pos} {b : Bool} (h : exec (decodeBit p b) s = .next t) :
    t.out = .none ∨ decodeBit p b = .complete b := by
  rcases exec_decodeBit_cases h with ⟨-, -, rfl⟩ | ⟨-, -, rfl⟩ | ⟨-, -, rfl⟩ | ⟨rfl, -⟩
  · exact .inl rfl
  · exact .inl rfl
  · exact .inl rfl
  · exact .inr rfl

/-- Only COMPLETE and FAULT.INPUT answer an output other than `None` (R80). -/
theorem out_of_exec_selectWith {s t : State} {x : Input} (h : exec (selectWith s x) s = .next t) :
    t.out = .none ∨ (∃ bit, selectWith s x = .complete bit) ∨ ∃ v, selectWith s x = .faultInput v := by
  rcases selectWith_cases s x with ⟨-, e⟩ | ⟨-, -, e⟩ | ⟨-, -, -, e⟩ | ⟨-, -, -, -, e⟩ | ⟨b, -, -, -, -, e⟩ <;>
    rw [e] at h ⊢
  · cases h; exact .inl rfl
  · cases h; exact .inl rfl
  · cases h; exact .inl rfl
  · exact .inr (.inr ⟨_, rfl⟩)
  · exact (out_of_exec_decodeBit h).imp_right fun hc => .inl ⟨b, hc⟩

/-- The test for a 1 reads a presented bit back. -/
theorem decide_ofBit_eq_one (b : Bool) : decide (ofBit b = 1) = b := by cases b <;> rfl

/-- The number of a bit passes the test of FAULT.INPUT's value (60_exceptions.md R170). -/
theorem ofBit_not_invalid (b : Bool) : ¬ (ofBit b ≠ 0 ∧ ofBit b ≠ 1) := by cases b <;> simp [ofBit]

end Sys2Proof.Machine

namespace Sys2Proof.Proofs
open Sys2Proof.Machine

/-- Settles O15: the guard lets these steps through, and a bit is decoded through its selector word. -/
theorem stepRunsSelectedOperation : Obligations.StepRunsSelectedOperation :=
  ⟨fun _ _ _ => step_of_inputs_cons, fun _ => step_of_inputs_nil, selectWith_ofBit⟩

/-- Settles O16: the outcomes of the selection are met in the order of the seven tests; on a bit the last three are tests of
`pos`. -/
theorem selectionOrder : Obligations.SelectionOrder := by
  refine ⟨fun s t x => out_of_exec_selectWith, fun s x hpos => ?_⟩
  rcases selectWith_cases s x with
    ⟨hr, e⟩ | ⟨hr, hh, e⟩ | ⟨hr, hh, hv, e⟩ | ⟨hr, hh, hv, hx, e⟩ | ⟨b, hr, hh, hv, hx, e⟩ <;> rw [e]
  · simp [hr]
  · simp [hr, hh]
  · simp [hr, hh, hv]
  · simp [hr, hh, hv, asBit_eq_none.mp hx]
  · have hsync : [true, false, true, false, true, true, false, false][s.pos.toNat]? = some b ↔
        s.pos.toNat < 8 ∧ b = syncBit s.pos := syncPattern_getElem?_eq_some
    simp only [hr, hh, hv, hx, decide_ofBit_eq_one, hsync, if_neg (ofBit_not_invalid b), decodeBit_eq_ite hpos]
    by_cases h8 : s.pos.toNat < 8 <;> simp [h8]

end Sys2Proof.Proofs

/-! When words are emitted (40_framer.md R90): only at a frame's end, at least 84 steps apart, and one at the end of every frame
that starts at position 0. -/

namespace Sys2Proof.Machine

/-- A bit gains at most one position, and the bit that emits a word gives 84 back (R90 (b)). -/
theorem word_budget_of_exec_decodeBit {s t : State} {p : Pos} {b : Bool} (h : exec (decodeBit p b) s = .next t) :
    84 * messageCount t.out + t.pos.toNat ≤ p.toNat + 1 := by
  have hinc : (p + 1).toNat ≤ p.toNat + 1 := Nat.mod_le _ _
  rcases exec_decodeBit_cases h with ⟨-, -, rfl⟩ | ⟨-, -, rfl⟩ | ⟨-, -, rfl⟩ | ⟨rfl, rfl⟩
  · simpa only [messageCount, Nat.mul_zero, Nat.zero_add] using hinc
  · simp [messageCount]
  · simpa only [messageCount, Nat.mul_zero, Nat.zero_add] using hinc
  · simp [messageCount]

/-- No step gains more than one position, and the step that emits a word gives 84 back. -/
theorem word_budget_of_step {s t : State} (h : step s = .next t) :
    84 * messageCount t.out + t.pos.toNat ≤ s.pos.toNat + 1 := by
  rcases step_cases h with ⟨-, rfl⟩ | ⟨-, -, rfl⟩ | ⟨-, -, -, rfl⟩ | ⟨-, -, -, rfl⟩ | ⟨b, -, -, -, -, he⟩
  · simp [resetCore_eq, messageCount]
  · simp [quiet_eq, consume_eq, messageCount]
  · simp [quiet_eq, consume_eq, messageCount]
  · simp [takeInputInvalid_eq, consume_eq, messageCount]
  · exact word_budget_of_exec_decodeBit he

/-- A run of `n + 1` steps is a step and a run of `n`. -/
theorem runOutputs_succ {n : Nat} {s t : State} (h : step s = .next t) :
    runOutputs (n + 1) s = (runOutputs n t).map fun r => (t.out :: r.1, r.2) := by
  rw [runOutputs, h]

theorem runOutputs_succ_eq_some {n : Nat} {s t : State} {os : List Output}
    (h : runOutputs (n + 1) s = some (os, t)) :
    ∃ u os', step s = .next u ∧ runOutputs n u = some (os', t) ∧ os = u.out :: os' := by
  cases hs : step s with
  | next u =>
    rw [runOutputs_succ hs, Option.map_eq_some_iff] at h
    obtain ⟨⟨os', _⟩, hrun, ⟨⟩⟩ := h
    exact ⟨u, os', rfl, hrun, rfl⟩
  | fault r => simp [runOutputs, hs] at h
  | refused r => simp [runOutputs, hs] at h

theorem wordCount_cons (o : Output) (os : List Output) : wordCount (o :: os) = messageCount o + wordCount os := rfl

end Sys2Proof.Machine

namespace Sys2Proof.Proofs
open Sys2Proof.Machine

/-- Settles O59: by induction on the run, each step within its budget. -/
theorem oneWordPer84Steps : Obligations.OneWordPer84Steps := by
  intro n
  induction n with
  | zero =>
    rintro s t os ⟨⟩
    simp [wordCount]
  | succ n ih =>
    intro s t os h
    obtain ⟨u, os', hstep, hrun, rfl⟩ := runOutputs_succ_eq_some h
    have hfirst := word_budget_of_step hstep
    have hrest := ih u t os' hrun
    rw [wordCount_cons]
    omega

/-- Settles O52: of what a step can do only COMPLETE at 83 outputs a word. -/
theorem wordOnlyAtFrameEnd : Obligations.WordOnlyAtFrameEnd := by
  intro s t w h hw
  rcases step_cases h with ⟨-, rfl⟩ | ⟨-, -, rfl⟩ | ⟨-, -, -, rfl⟩ | ⟨-, -, -, rfl⟩ | ⟨b, hr, hh, hv, hx, he⟩
  · cases hw
  · cases hw
  · cases hw
  · cases hw
  · rcases exec_decodeBit_cases he with ⟨-, -, rfl⟩ | ⟨-, -, rfl⟩ | ⟨-, -, rfl⟩ | ⟨hp, rfl⟩
    · cases hw
    · cases hw
    · cases hw
    · exact ⟨congrArg BitVec.toNat hp, hh, hr, hv, b, hx, (Output.word.inj hw).symm⟩

end Sys2Proof.Proofs

/-! One frame on its way through the framer (30_encoding.md R72, 40_framer.md R90): before the bit at `pos` is presented the
buffer holds what was collected of the block, and the rest of the frame is pending. -/

namespace Sys2Proof.Machine

/-- The state in the course of `FRAME(B)`, `rest` being what is presented after it. -/
structure InFrame (block : Bits76) (rest : List Input) (s : State) : Prop where
  wasReset : s.wasReset = true
  halt : s.halt = false
  pos_le : s.pos.toNat ≤ 83
  buf : s.buf = collectedPart s.pos block
  inputs : s.inputs = (frameInputs block).drop s.pos.toNat ++ rest

/-- What the frame leaves behind: the framer at its start, the block's word as the output, and the inputs after the frame. -/
def frameEnd (block : Bits76) (rest : List Input) (s : State) : State :=
  { s with
    pos := 0, buf := 0, inputs := rest, pipe := Pipe.clear
    out := .word (decodeBlock block s.correctMode s.forceValue) }

/-- The bit of `FRAME(B)` at a position: the pattern, then the block (R72). -/
def frameBit (block : Bits76) (p : Pos) : Bool := if p.toNat < 8 then syncBit p else block.getMsbD (p.toNat - 8)

theorem frameInputs_length (block : Bits76) : (frameInputs block).length = 84 := by
  simp [frameInputs, syncPattern]

theorem frameInputs_getElem (block : Bits76) (p : Pos) (h : p.toNat < (frameInputs block).length) :
    (frameInputs block)[p.toNat] = bitInput (frameBit block p) := by
  simp only [frameInputs, List.getElem_map, List.getElem_append, List.getElem_range, syncPattern_length, frameBit]
  by_cases h8 : p.toNat < 8
  · have hsync : syncPattern[p.toNat] = syncBit p := (List.getD_eq_getElem _ _ h8).symm
    rw [dif_pos h8, if_pos h8, hsync]
  · rw [dif_neg h8, if_neg h8]

/-- What is left of the frame at a position: that position's bit, and what is left after it. -/
theorem frameInputs_drop (block : Bits76) {p : Pos} (hp : p.toNat ≤ 83) :
    (frameInputs block).drop p.toNat = bitInput (frameBit block p) :: (frameInputs block).drop (p.toNat + 1) := by
  have hlen : p.toNat < (frameInputs block).length := by rw [frameInputs_length]; omega
  rw [List.drop_eq_getElem_cons hlen, frameInputs_getElem]

/-- Nothing is collected up to position 8 (10_state.md R23). -/
theorem collectedPart_of_le {p : Pos} (hp : p.toNat ≤ 8) (block : Bits76) : collectedPart p block = 0 :=
  ext_getMsbD fun k _ => by
    rw [collectedPart_getMsbD, decide_eq_false (by omega), Bool.false_and]
    exact BitVec.getMsbD_zero.symm

/-- Collecting the block's next bit collects the block one position further (40_framer.md R83). -/
theorem setElem_collectedPart {p : Pos} (hlow : 8 ≤ p.toNat) (hhigh : p.toNat ≤ 83) (block : Bits76) :
    setElem (collectedPart p block) (p.toNat - 8) (block.getMsbD (p.toNat - 8)) = collectedPart (p + 1) block := by
  refine ext_getMsbD fun k hk => ?_
  rw [setElem_getMsbD, decide_eq_true hk, Bool.true_and, collectedPart_getMsbD, collectedPart_getMsbD,
    toNat_pos_add_one hhigh]
  split_ifs with h
  · rw [h, decide_eq_true (by omega), Bool.true_and]
  · simp [show k < p.toNat - 8 ↔ k < p.toNat + 1 - 8 by omega]

/-- The 75 bits collected at the last position and the block's last are the block (R84). -/
theorem completedBlock_collectedPart {p : Pos} (hp : p.toNat = 83) (block : Bits76) :
    completedBlock (collectedPart p block) (frameBit block p) = block := by
  refine ext_getMsbD fun k hk => ?_
  rw [completedBlock_getMsbD, collectedPart_getMsbD, frameBit, hp, decide_eq_true hk, Bool.true_and]
  by_cases h : k < 75
  · rw [if_pos h, decide_eq_true h, Bool.true_and]
  · rw [if_neg h, if_neg (by omega), show 83 - 8 = k by omega]

namespace InFrame

variable {block : Bits76} {rest : List Input} {s : State}

theorem inv (h : InFrame block rest s) : Inv s := by
  refine ⟨h.wasReset, h.pos_le, fun k _ hk => ?_⟩
  rw [h.buf, collectedPart_getMsbD, decide_eq_false (by omega), Bool.false_and]

/-- The next step is the framer's on the frame's next bit. -/
theorem step_eq (h : InFrame block rest s) :
    step s = exec (decodeBit s.pos (frameBit block s.pos))
      { s with inputs := (frameInputs block).drop (s.pos.toNat + 1) ++ rest } := by
  have hi : s.inputs = bitInput (frameBit block s.pos) :: ((frameInputs block).drop (s.pos.toNat + 1) ++ rest) := by
    rw [h.inputs, frameInputs_drop block h.pos_le, List.cons_append]
  rw [step_of_inputs_cons hi (.inl h.inv), selectWith_bitInput h.halt]

/-- Short of the last position the step outputs nothing and stays in the frame, one position further. -/
theorem step_next (h : InFrame block rest s) (hp : s.pos.toNat < 83) :
    ∃ t, step s = .next t ∧ InFrame block rest t ∧ t.pos.toNat = s.pos.toNat + 1 ∧
      t = { s with pos := t.pos, buf := t.buf, out := .none, inputs := t.inputs } := by
  have hpos := toNat_pos_add_one h.pos_le
  rw [h.step_eq, decodeBit_eq_ite h.pos_le]
  by_cases h8 : s.pos.toNat < 8
  · have hbit : frameBit block s.pos = syncBit s.pos := if_pos h8
    have hbuf : s.buf = collectedPart (s.pos + 1) block := by
      rw [h.buf, collectedPart_of_le h8.le, collectedPart_of_le (by omega)]
    rw [if_pos h8, if_pos hbit]
    exact ⟨_, execSyncHit_eq h8 hbit _, ⟨h.wasReset, h.halt, hpos.trans_le hp, hbuf, by rw [hpos]⟩, hpos, rfl⟩
  · have hbit : frameBit block s.pos = block.getMsbD (s.pos.toNat - 8) := if_neg h8
    have hbuf : setElem s.buf (s.pos.toNat - 8) (frameBit block s.pos) = collectedPart (s.pos + 1) block := by
      rw [h.buf, hbit, setElem_collectedPart (by omega) h.pos_le]
    rw [if_neg h8, if_pos hp]
    exact ⟨_, execCollect_eq (by omega) hp _ _, ⟨h.wasReset, h.halt, hpos.trans_le hp, hbuf, by rw [hpos]⟩, hpos, rfl⟩

/-- At the last position the step emits the block's word. -/
theorem step_last (h : InFrame block rest s) (hp : s.pos.toNat = 83) : step s = .next (frameEnd block rest s) := by
  rw [h.step_eq, decodeBit_eq_ite h.pos_le, if_neg (by omega), if_neg (by omega), exec, execComplete_eq]
  simp only [h.buf, completedBlock_collectedPart hp, frameEnd]
  rw [List.drop_of_length_le (by rw [frameInputs_length]; omega), List.nil_append]

/-- With `m` bits before its last one, the frame's run outputs nothing `m` times and then the word. -/
theorem runOutputs_eq (m : Nat) : ∀ s, InFrame block rest s → s.pos.toNat + m = 83 →
    runOutputs (m + 1) s =
      some (List.replicate m .none ++ [.word (decodeBlock block s.correctMode s.forceValue)], frameEnd block rest s) := by
  induction m with
  | zero =>
    intro s h hm
    rw [runOutputs_succ (h.step_last hm)]
    rfl
  | succ m ih =>
    intro s h hm
    obtain ⟨t, hstep, ht, hpos, hframe⟩ := h.step_next (by omega)
    rw [runOutputs_succ hstep, ih t ht (by omega), hframe]
    rfl

end InFrame

/-- A framer at its start with the whole frame pending. -/
theorem inFrame_of_pos_zero {block : Bits76} {rest : List Input} {s : State} (hInv : Inv s) (hpos : s.pos = 0)
    (hhalt : s.halt = false) (hi : s.inputs = frameInputs block ++ rest) : InFrame block rest s where
  wasReset := hInv.1
  halt := hhalt
  pos_le := by simp [hpos]
  buf := by
    obtain ⟨-, -, hbuf⟩ := hInv
    rw [hpos, collectedPart_of_le (by simp)]
    exact ext_getMsbD fun k hk => (hbuf k hk (by simp [hpos])).trans BitVec.getMsbD_zero.symm
  inputs := by simp [hpos, hi]

end Sys2Proof.Machine

namespace Sys2Proof.Proofs
open Sys2Proof.Machine

/-- Settles O53: the run of a frame from its first position. -/
theorem frameEmitsExactlyOneWord : Obligations.FrameEmitsExactlyOneWord := by
  intro s block rest hInv hpos hhalt hi
  have hrun := (inFrame_of_pos_zero hInv hpos hhalt hi).runOutputs_eq 83 s (by simp [hpos])
  exact ⟨_, hrun, rfl⟩

end Sys2Proof.Proofs

/-! The deinterleave table: its closed form and inverse (41_deinterleaver.md R102), the generator that makes it (R101), and what
DEINT and SPLIT read through it and by parity (R100, R103). -/

namespace Sys2Proof.Machine

/-- The closed form of `T[i]` (R102): four interleaved runs, 19 apart. -/
def strideIndex (i : Nat) : Nat := 19 * (i % 4) + i / 4

theorem strideIndex_lt {i : Nat} (h : i < 76) : strideIndex i < 76 := by
  unfold strideIndex
  omega

theorem deintInverse_strideIndex {i : Nat} (h : i < 76) : deintInverse (strideIndex i) = i := by
  unfold deintInverse strideIndex
  omega

theorem deintTable_eq_map_strideIndex : deintTable = (List.range 76).map strideIndex := by decide

theorem deintIndex_eq_strideIndex {i : Nat} (h : i < 76) : deintIndex i = strideIndex i := by
  simp [deintIndex, deintTable_eq_map_strideIndex, h]

theorem deintIndex_lt {i : Nat} (h : i < 76) : deintIndex i < 76 :=
  (deintIndex_eq_strideIndex h).trans_lt (strideIndex_lt h)

theorem deintInverse_deintIndex {i : Nat} (h : i < 76) : deintInverse (deintIndex i) = i := by
  rw [deintIndex_eq_strideIndex h, deintInverse_strideIndex h]

/-- No block index is read twice: the inverse tells the positions apart. -/
theorem nodup_map_deintIndex : ((List.range 76).map deintIndex).Nodup := by
  refine List.Nodup.map_on (fun i hi j hj hij => ?_) List.nodup_range
  rw [← deintInverse_deintIndex (List.mem_range.mp hi), hij, deintInverse_deintIndex (List.mem_range.mp hj)]

/-- `T` is a permutation of 0 to 75 (R100): 76 different indices below 76. -/
theorem map_deintIndex_perm : ((List.range 76).map deintIndex).Perm (List.range 76) := by
  have hsub : (List.range 76).map deintIndex ⊆ List.range 76 := by
    intro p hp
    obtain ⟨i, hi, rfl⟩ := List.mem_map.mp hp
    exact List.mem_range.mpr (deintIndex_lt (List.mem_range.mp hi))
  exact (List.subperm_of_subset nodup_map_deintIndex hsub).perm_of_length_le (by simp)

/-- The running index, 1-based, steps from each entry to the next, with the repaired wrap after every fourth (R101). -/
theorem genNext_strideIndex {i : Nat} (h : i < 76) : genNext (strideIndex i + 1) = strideIndex (i + 1) + 1 := by
  unfold genNext strideIndex
  by_cases hwrap : i % 4 = 3
  · have hrow : (i + 1) / 4 = i / 4 + 1 := by omega
    have hcol : (i + 1) % 4 = 0 := by omega
    rw [hwrap, hrow, hcol, if_pos (by omega)]
    omega
  · have hrow : (i + 1) / 4 = i / 4 := by omega
    have hcol : (i + 1) % 4 = i % 4 + 1 := by omega
    rw [hrow, hcol, if_neg (by omega)]
    omega

/-- From the entry at `i` on, the generator makes the entries that follow it in the table. -/
theorem genTable_strideIndex (n i : Nat) (h : i + n ≤ 76) :
    genTable n (strideIndex i + 1) = (List.range' i n).map strideIndex := by
  induction n generalizing i with
  | zero => rfl
  | succ n ih =>
    rw [genTable, genNext_strideIndex (by omega), ih (i + 1) (by omega), Nat.add_sub_cancel]
    rfl

end Sys2Proof.Machine

namespace Sys2Proof.Proofs
open Sys2Proof.Machine

/-- Settles O22: DEINT writes `rawBits` alone, and `T` permutes the block's indices. -/
theorem deintReadsThroughTable : Obligations.DeintReadsThroughTable := by
  refine fun s => ⟨_, rfl, fun i hi => ?_, map_deintIndex_perm, rfl⟩
  rw [State.setPipe_pipe, deinterleave_getMsbD, decide_eq_true hi, Bool.true_and]

/-- Settles O24: the running index 1 is that of entry 0, and 76 rounds from there make every entry. -/
theorem tableGeneratorMakesTable : Obligations.TableGeneratorMakesTable :=
  calc genTable 76 1
    _ = (List.range' 0 76).map strideIndex := genTable_strideIndex 76 0 le_rfl
    _ = (List.range 76).map strideIndex := by rw [List.range_eq_range']
    _ = deintTable := deintTable_eq_map_strideIndex.symm

/-- Settles O26: SPLIT writes `infoRx` and `parityBits` alone, each from its own positions. -/
theorem splitByPositionParity : Obligations.SplitByPositionParity := by
  refine fun s => ⟨_, rfl, fun j hj => ⟨?_, ?_⟩, rfl⟩
  · rw [State.setPipe_pipe, splitInfo_getMsbD, decide_eq_true hj, Bool.true_and]
  · rw [State.setPipe_pipe, splitParity_getMsbD, decide_eq_true hj, Bool.true_and]

end Sys2Proof.Proofs

/-! The parity corrector: what PARCALC, SYNDROME and CORRECT write (42_parity_corrector.md R110 to R114). -/

namespace Sys2Proof.Machine

/-- What a correction gives, by mode: the inverted bit (R113) or FORCE_VALUE (R114). -/
theorem corrected_eq_ite (mode : CorrectMode) (fv x : Bool) : corrected mode fv x = if mode = .toggle then !x else fv := by
  cases mode <;> rfl

/-- Up to index 36 a pair starts exactly where two neighbouring syndrome bits are 1 (R112). -/
theorem pairAt_iff {syn : Bits38} {i : Nat} (h : i ≤ 36) :
    pairAt syn i = true ↔ syn.getMsbD i = true ∧ syn.getMsbD (i + 1) = true := by
  rw [pairAt, decide_eq_true h, Bool.true_and, Bool.and_eq_true]

/-- No pair starts at the last index (R112). -/
theorem pairAt_last (syn : Bits38) : pairAt syn 37 = false := rfl

/-- Index 37 is copied in either mode (R112). -/
theorem correctBits_getMsbD_last (mode : CorrectMode) (fv : Bool) (info syn : Bits38) :
    (correctBits mode fv info syn).getMsbD 37 = info.getMsbD 37 := by
  simp [pairAt_last]

end Sys2Proof.Machine

namespace Sys2Proof.Proofs
open Sys2Proof.Machine

/-- Settles O30: CORRECT writes `infoBits` alone, corrected where a pair starts and copied elsewhere. -/
theorem correctActsOnPairs : Obligations.CorrectActsOnPairs := by
  refine ⟨rfl, fun s => ⟨_, rfl, fun i hi => ?_, correctBits_getMsbD_last _ _ _ _, rfl⟩⟩
  have hlt : i < 38 := by omega
  simp only [State.setPipe_pipe, correctBits_getMsbD, decide_eq_true hlt, Bool.true_and, pairAt_iff hi, corrected_eq_ite]

/-- Settles O28: PARCALC writes `calculatedParity` alone, index 0 from the first bit and every other from two neighbours. -/
theorem parcalcXorsNeighbours : Obligations.ParcalcXorsNeighbours := by
  refine fun s => ⟨_, rfl, ?first, fun i h1 h37 => ?later, rfl⟩
  case first => simp
  case later =>
    have hlt : i < 38 := by omega
    have hne : i ≠ 0 := by omega
    rw [State.setPipe_pipe, parityOf_getMsbD, decide_eq_true hlt, Bool.true_and, if_neg hne]

/-- Settles O29: SYNDROME writes `syndrome` alone, element by element. -/
theorem syndromeIsParityDifference : Obligations.SyndromeIsParityDifference :=
  fun _ => ⟨_, rfl, fun i _ => syndromeOf_getMsbD _ _ i, rfl⟩

end Sys2Proof.Proofs

/-! The field extractor (43_field_extractor.md): a slice as the sum of 00_scope.md R9, and what XADDR, XGROUP, XCMD and XCSUM
write (R125 to R128). -/

namespace Sys2Proof.Machine

/-- A sequence as an unsigned value, its first element most significant (R9). -/
theorem seqOf_toNat (n : Nat) (f : Nat → Bool) :
    (seqOf n f).toNat = ∑ i ∈ Finset.range n, (f i).toNat * 2 ^ (n - 1 - i) := by
  induction n with
  | zero => rfl
  | succ n ih =>
    have hdouble : ∀ i ∈ Finset.range n, (f i).toNat * 2 ^ (n - i) = (f i).toNat * 2 ^ (n - 1 - i) * 2 := by
      intro i hi
      have hi := Finset.mem_range.mp hi
      rw [Nat.mul_assoc, ← Nat.pow_succ, show (n - 1 - i).succ = n - i by omega]
    rw [seqOf, BitVec.toNat_concat, ih, Finset.sum_range_succ, Nat.add_sub_cancel, Finset.sum_congr rfl hdouble,
      Finset.sum_mul, Nat.sub_self, Nat.pow_zero, Nat.mul_one]

/-- `bits_to_uint(slice(S, a, a + len))` as the sum of R9. -/
theorem slice_toNat {n : Nat} (S : BitVec n) (a len : Nat) :
    (slice S a len).toNat = ∑ i ∈ Finset.range len, (S.getMsbD (a + i)).toNat * 2 ^ (len - 1 - i) :=
  seqOf_toNat _ _

/-- The leading slice of a concatenation is its upper part (R8). -/
theorem slice_zero_append {m n : Nat} (x : BitVec m) (y : BitVec n) : slice (x ++ y) 0 m = x :=
  ext_getMsbD fun i hi => by simp [BitVec.getMsbD_append, hi]

/-- Equal slices have equal elements. -/
theorem getMsbD_eq_of_slice_eq {n a len i : Nat} {S T : BitVec n} (h : slice S a len = slice T a len) (hi : i < len) :
    S.getMsbD (a + i) = T.getMsbD (a + i) := by
  simpa [hi] using congrArg (·.getMsbD i) h

/-- The two constants of R125 undo themselves. -/
theorem addressOf_eq_iff {info : Bits38} {v : Addr} :
    addressOf info = v ↔ scrambledAddress info = v ^^^ addrKey ^^^ addrInv := by
  constructor
  · rintro rfl
    simp [addressOf, BitVec.xor_assoc]
  · intro h
    simp [addressOf, h, BitVec.xor_assoc]

/-- Every address comes from exactly one pattern of the sixteen bits (R125). -/
theorem exists_unique_address_pattern (v : Addr) :
    ∃ info : Bits38, addressOf info = v ∧
      ∀ other : Bits38, addressOf other = v → ∀ i < 16, other.getMsbD i = info.getMsbD i := by
  have hinfo : slice ((v ^^^ addrKey ^^^ addrInv) ++ 0#22) 0 16 = v ^^^ addrKey ^^^ addrInv := slice_zero_append _ _
  refine ⟨(v ^^^ addrKey ^^^ addrInv) ++ 0#22, addressOf_eq_iff.mpr hinfo, fun other hother i hi => ?_⟩
  have hslice := (addressOf_eq_iff.mp hother).trans hinfo.symm
  simpa using getMsbD_eq_of_slice_eq hslice hi

theorem addressOf_toNat (info : Bits38) :
    (addressOf info).toNat =
      ((∑ i ∈ Finset.range 16, (info.getMsbD i).toNat * 2 ^ (15 - i)) ^^^ 0xFFFF) ^^^ 0x33C7 := by
  rw [addressOf, BitVec.toNat_xor, BitVec.toNat_xor, scrambledAddress, bitsToUint, slice_toNat]
  simp only [Nat.zero_add]
  rfl

theorem commandOf_toNat (info : Bits38) :
    (commandOf info).toNat =
      ((∑ i ∈ Finset.range 10, (info.getMsbD (17 + i)).toNat * 2 ^ (9 - i)) ^^^ 0x3FF) ^^^ 0x32A := by
  rw [commandOf, BitVec.toNat_xor, BitVec.toNat_xor, scrambledCommand, bitsToUint, slice_toNat]
  rfl

theorem checksumReceivedOf_toNat (info : Bits38) :
    (checksumReceivedOf info).toNat =
      (∑ i ∈ Finset.range 10, (info.getMsbD (27 + i)).toNat * 2 ^ (9 - i)) ^^^ 0x3FF := by
  rw [checksumReceivedOf, BitVec.toNat_xor, scrambledChecksum, bitsToUint, slice_toNat]
  rfl

/-- The group flag has the inverted sense of the group bit (R126). -/
theorem groupFlagOf_eq_true_iff (info : Bits38) : groupFlagOf info = true ↔ info.getMsbD 16 = false := by
  rw [groupFlagOf, groupBit, Bool.not_eq_true']

end Sys2Proof.Machine

namespace Sys2Proof.Proofs
open Sys2Proof.Machine

/-- Settles O35: XADDR writes `address` alone, and its XORs, undone, give the one pattern of an address. -/
theorem xaddrDescramblesAddress : Obligations.XaddrDescramblesAddress :=
  ⟨exists_unique_address_pattern, fun s => ⟨_, rfl, addressOf_toNat s.pipe.infoBits, rfl⟩⟩

/-- Settles O37: XCMD writes `command` alone. -/
theorem xcmdDescramblesCommand : Obligations.XcmdDescramblesCommand :=
  fun s => ⟨_, rfl, commandOf_toNat s.pipe.infoBits, rfl⟩

/-- Settles O38: XCSUM writes `checksumReceived` alone. -/
theorem xcsumDescramblesChecksum : Obligations.XcsumDescramblesChecksum :=
  fun s => ⟨_, rfl, checksumReceivedOf_toNat s.pipe.infoBits, rfl⟩

/-- Settles O36: XGROUP writes `groupFlag` alone. -/
theorem xgroupInvertsGroupBit : Obligations.XgroupInvertsGroupBit :=
  fun s => ⟨_, rfl, groupFlagOf_eq_true_iff s.pipe.infoBits, rfl⟩

end Sys2Proof.Proofs

/-! The checksum (44_checksum.md): one step of the generator as R140 writes it, and CSUM.GEN as steps one after another. -/

namespace Sys2Proof.Machine

/-- Line 1 of LFSR.STEP in the arithmetic of R140: halve, and add the polynomial where a 1 was shifted out. -/
theorem lfsrNextA_eq_ite (a : Bits10) :
    lfsrNextA a = if a.toNat % 2 = 1 then BitVec.ofNat 10 (a.toNat / 2) ^^^ lfsrPoly else BitVec.ofNat 10 (a.toNat / 2) := by
  have hbit : a.getLsbD 0 = decide (a.toNat % 2 = 1) := by
    rw [BitVec.getLsbD, Nat.testBit_zero]
  have hshift : a >>> 1 = BitVec.ofNat 10 (a.toNat / 2) := by
    apply BitVec.eq_of_toNat_eq
    rw [BitVec.toNat_ushiftRight, Nat.shiftRight_one, BitVec.toNat_ofNat, Nat.mod_eq_of_lt (by omega)]
  rw [lfsrNextA, hbit, hshift]
  simp only [decide_eq_true_eq]

/-- `n` rounds are `n` LFSR.STEP operations in order: no round changes the information bits that the later ones read (R141). -/
theorem lfsrRounds_eq_execAll (n j : Nat) (s : State) :
    lfsrRounds n j s = execAll ((List.range' j n).map fun k => .lfsrStep (s.pipe.infoBits.getMsbD k)) s := by
  induction n generalizing j s with
  | zero => rfl
  | succ n ih =>
    calc lfsrRounds (n + 1) j s
      _ = andThen (exec (.lfsrStep (s.pipe.infoBits.getMsbD j)) s) (lfsrRounds n (j + 1)) := rfl
      _ = lfsrRounds n (j + 1) _ := andThen_next _ _
      _ = execAll ((List.range' j (n + 1)).map fun k => .lfsrStep (s.pipe.infoBits.getMsbD k)) s := ih _ _

/-- The comparison of CSUM.CMP (R143). -/
theorem checksumValidOf_iff {received computed : Bits10} :
    checksumValidOf received computed = true ↔ received = computed := beq_iff_eq

end Sys2Proof.Machine

namespace Sys2Proof.Proofs
open Sys2Proof.Machine

/-- Settles O41: the rounds of CSUM.GEN are the steps from the initial registers, and `B` after the last is latched. -/
theorem csumGenRunsLfsr : Obligations.CsumGenRunsLfsr := by
  intro s
  have hsteps : execAll ((List.range 27).map fun j => .lfsrStep (s.pipe.infoBits.getMsbD j)) (lfsrInit s) =
      lfsrRounds nCsumIn 0 (lfsrInit s) := by
    rw [List.range_eq_range', lfsrRounds_eq_execAll]
    rfl
  exact ⟨_, _, execCsumGen_eq s, hsteps.trans (lfsrRounds_eq _ _ _), rfl, rfl⟩

/-- Settles O40: LFSR.STEP writes the registers `A` and `B` alone, `B` from the `A` just written. -/
theorem lfsrStepAdvancesThenAbsorbs : Obligations.LfsrStepAdvancesThenAbsorbs :=
  fun s _ => ⟨_, rfl, lfsrNextA_eq_ite s.pipe.lfsrA, rfl, rfl⟩

/-- Settles O43: CSUM.CMP writes `checksumValid` alone, the comparison of the two checksums. -/
theorem csumCmpComparesChecksums : Obligations.CsumCmpComparesChecksums :=
  fun _ => ⟨_, rfl, checksumValidOf_iff, rfl⟩

end Sys2Proof.Proofs

/-! The decode pipeline (45_decode_pipeline.md): DECODE as the pure decoder (R155), what its word depends on (R161), and EMIT
(R156). -/

namespace Sys2Proof.Machine

/-- The word that DECODE leaves in the transients is the pure decoder's, whatever the transients held before (R155, R161). -/
theorem wordOf_pipeAfterDecode (p : Pipe) (mode : CorrectMode) (fv : Bool) :
    wordOf (pipeAfterDecode p mode fv) = decodeBlock p.block mode fv := rfl

/-- Of the buffer, the completed block holds the 75 collected bits only (40_framer.md R84). -/
theorem completedBlock_congr {buf buf' : Bits76} (h : ∀ k < 75, buf.getMsbD k = buf'.getMsbD k) (bit : Bool) :
    completedBlock buf bit = completedBlock buf' bit := by
  refine seqOf_congr fun k _ => ?_
  split_ifs with hk
  · exact h k hk
  · rfl

/-- What COMPLETE outputs, whenever it answers (R84). -/
theorem out_of_execComplete {s t : State} {bit : Bool} (h : execComplete bit s = .next t) :
    t.out = .word (decodeBlock (completedBlock s.buf bit) s.correctMode s.forceValue) := by
  obtain rfl := Host.Outcome.next.inj ((execComplete_eq bit s).symm.trans h)
  rfl

end Sys2Proof.Machine

namespace Sys2Proof.Proofs
open Sys2Proof.Machine

/-- Settles O45: each transient after DECODE is its line of R155, and the word is the pure decoder's. -/
theorem decodeRunsStages : Obligations.DecodeRunsStages := by
  intro s
  have hword := wordOf_pipeAfterDecode s.pipe s.correctMode s.forceValue
  exact ⟨_, execDecode_eq s, rfl, rfl, rfl, rfl, rfl, rfl, rfl, rfl, rfl, rfl, rfl, rfl, hword, rfl, rfl⟩

/-- Settles O51: COMPLETE outputs the decoder's word of the completed block, which is the same block in both states. -/
theorem blockAloneDecidesWord : Obligations.BlockAloneDecidesWord := by
  intro s s' t t' bit hbuf hmode hforce ht ht'
  calc t.out
    _ = .word (decodeBlock (completedBlock s.buf bit) s.correctMode s.forceValue) := out_of_execComplete ht
    _ = .word (decodeBlock (completedBlock s'.buf bit) s'.correctMode s'.forceValue) := by
      rw [completedBlock_congr hbuf, hmode, hforce]
    _ = t'.out := (out_of_execComplete ht').symm

/-- Settles O46: EMIT writes the output alone, and looks at no field of the word; the pins follow from a word as output. -/
theorem emitOutputsWord : Obligations.EmitOutputsWord :=
  fun s => ⟨s.setOut (.word (wordOf s.pipe)), wordOf s.pipe, rfl, rfl, rfl, rfl, rfl⟩

end Sys2Proof.Proofs

/-! The halted machine and the fault (60_exceptions.md): HALTED ignores what is presented (R178), and FAULT.INPUT is taken with its
cause and value (R170, R171). -/

namespace Sys2Proof.Machine

/-- On a value that is no bit FAULT.INPUT sets `halt` and outputs the fault, and writes nothing else (R170). -/
theorem exec_faultInput_eq {v : Int} (h0 : v ≠ 0) (h1 : v ≠ 1) (s : State) :
    exec (.faultInput v) s = .next { s with halt := true, out := .fault (.inputInvalid v) } :=
  execFaultInput_of_asBit_eq_none (asBit_eq_none.mpr ⟨h0, h1⟩) s

/-- No selector word selects FAULT.INPUT, which has no word of its own (30_encoding.md R62, 60_exceptions.md R170). -/
theorem decodeSel_ne_faultInput (w : Sel) (v : Int) : decodeSel w ≠ .faultInput v := by
  intro h
  have hsome : (encode (.faultInput v)).isSome := h ▸ encode_decodeSel_isSome w
  simp [encode] at hsome

end Sys2Proof.Machine

namespace Sys2Proof.Proofs
open Sys2Proof.Machine

/-- Settles O3: of the two operations that a halted machine can select, RESET needs reset asserted. -/
theorem haltedIgnoresInput : Obligations.HaltedIgnoresInput :=
  fun _ x => ⟨fun hh hr => (selectWith_of_halt hh x).resolve_right fun ⟨hrst, _⟩ => by simp [hr] at hrst, rfl⟩

/-- Settles O5: a value that is no bit passes the tests before FAULT.INPUT, whose effect is that of taking the fault. -/
theorem faultInputHalts : Obligations.FaultInputHalts :=
  ⟨fun _ _ hr hh hv h0 h1 => selectWith_of_asBit_eq_none hr hh hv (asBit_eq_none.mpr ⟨h0, h1⟩),
    fun s _ h0 h1 => exec_faultInput_eq h0 h1 s, decodeSel_ne_faultInput⟩

/-- Settles O6: the output of FAULT.INPUT carries the cause and the value. -/
theorem faultCauseCode : Obligations.FaultCauseCode :=
  fun s _ h0 h1 => ⟨_, exec_faultInput_eq h0 h1 s, rfl, rfl, rfl, fun _ => rfl⟩

end Sys2Proof.Proofs

/-! Reset and the steps that answer (70_reset_and_hazards.md R195, R197): RESET beats every other condition, and below the
reserved positions whatever is presented selects an operation that answers. -/

namespace Sys2Proof.Machine

/-- With reset asserted the selection is RESET, whatever the state and the other pins (R195, 40_framer.md R80 test 1). -/
theorem selectWith_of_rst (s : State) {x : Input} (hr : x.rst = true) : selectWith s x = .reset := by
  rcases selectWith_cases s x with ⟨-, e⟩ | ⟨hn, -⟩ | ⟨hn, -⟩ | ⟨hn, -⟩ | ⟨_, hn, -⟩
  · exact e
  all_goals simp [hr] at hn

/-- A reset edge is the step RESET from every state, an unreset or unreachable one too (R195, R197). -/
theorem step_of_rst {s : State} (hr : s.nextInput.rst = true) : step s = .next (resetCore s.consume) := by
  rw [step_eq_exec (.inl hr), select, selectWith_of_rst s hr, exec, execReset]

/-- The reset values meet the invariant (10_state.md R33, R34). -/
theorem resetCore_inv (s : State) : Inv (resetCore s) :=
  ⟨rfl, Nat.zero_le _, fun _ _ _ => BitVec.getMsbD_zero⟩

/-- Up to position 83 every input selects an operation that answers: of those a selection can give, RESERVED.POS alone never
answers. The operation runs on the state with its input taken. -/
theorem exec_selectWith_consume_total {s : State} (hp : s.pos ≤ lastPos) (x : Input) :
    ∃ t, exec (selectWith s x) s.consume = .next t := by
  rcases selectWith_cases s x with ⟨-, e⟩ | ⟨-, -, e⟩ | ⟨-, -, -, e⟩ | ⟨-, -, -, hv, e⟩ | ⟨b, -, -, -, -, e⟩ <;> rw [e]
  · exact ⟨_, rfl⟩
  · exact ⟨_, rfl⟩
  · exact ⟨_, rfl⟩
  · exact ⟨_, execFaultInput_of_asBit_eq_none hv s.consume⟩
  · obtain ⟨t, ht, -⟩ := exec_decodeBit_accept s.consume b hp
    exact ⟨t, ht⟩

end Sys2Proof.Machine

namespace Sys2Proof.Proofs
open Sys2Proof.Machine

/-- Settles O2: reset is the first test of the selection, and the effect of RESET is `resetCore`. -/
theorem resetOperationClears : Obligations.ResetOperationClears :=
  fun s _ hr => ⟨selectWith_of_rst s hr, resetCore s, rfl, resetCore_eq s⟩

/-- Settles O56: under the invariant the guard lets the step through to an operation that answers; a reset edge passes it from
every state; it refuses everything else. -/
theorem stepAnswersFromInvOrReset : Obligations.StepAnswersFromInvOrReset := by
  refine ⟨fun s hInv => ?_, fun s hr => ⟨_, step_of_rst hr, resetCore_inv _⟩,
    fun s hInv hr => ⟨_, guardStep_refuses hr hInv⟩⟩
  rw [step_eq_exec (.inr hInv)]
  obtain ⟨-, hpos, -⟩ := hInv
  exact exec_selectWith_consume_total hpos s.nextInput

end Sys2Proof.Proofs

/-! Decode and encode (30_encoding.md R61, R62): the word of an operation decodes to it, and the rows of R62 are disjoint and
cover every word. -/

namespace Sys2Proof.Machine

theorem decodeBit_of_syncHit {p : Pos} {b : Bool} (h : (Instr.syncHit p b).WellFormed) : decodeBit p b = .syncHit p b := by
  simp only [Instr.WellFormed, Instr.wellFormed, Bool.and_eq_true, decide_eq_true_eq, beq_iff_eq] at h
  obtain ⟨hp, hb⟩ := h
  rw [decodeBit, if_pos hp, if_pos hb]

theorem decodeBit_of_syncMiss {p : Pos} {b : Bool} (h : (Instr.syncMiss p b).WellFormed) :
    decodeBit p b = .syncMiss p b := by
  simp only [Instr.WellFormed, Instr.wellFormed, Bool.and_eq_true, decide_eq_true_eq, bne_iff_ne] at h
  obtain ⟨hp, hb⟩ := h
  rw [decodeBit, if_pos hp, if_neg hb]

theorem decodeBit_of_collect {p : Pos} {b : Bool} (h : (Instr.collect p b).WellFormed) : decodeBit p b = .collect p b := by
  simp only [Instr.WellFormed, Instr.wellFormed, Bool.and_eq_true, decide_eq_true_eq] at h
  obtain ⟨hlow, hhigh⟩ := h
  rw [decodeBit, if_neg (BitVec.not_lt.mpr hlow), if_pos hhigh]

theorem decodeBit_lastPos (b : Bool) : decodeBit lastPos b = .complete b := rfl

/-- The word of a well-formed operation decodes to the operation (R61, R62). -/
theorem decodeSel_of_encode {i : Instr} {w : Sel} (hi : i.WellFormed) (hw : encode i = some w) : decodeSel w = i := by
  cases i with
  | reset | halted | idle =>
    obtain rfl := Option.some.inj hw
    decide
  | syncHit p b =>
    obtain rfl := Option.some.inj hw
    exact (decodeSel_selWord_bit p b).trans (decodeBit_of_syncHit hi)
  | syncMiss p b =>
    obtain rfl := Option.some.inj hw
    exact (decodeSel_selWord_bit p b).trans (decodeBit_of_syncMiss hi)
  | collect p b =>
    obtain rfl := Option.some.inj hw
    exact (decodeSel_selWord_bit p b).trans (decodeBit_of_collect hi)
  | complete b =>
    obtain rfl := Option.some.inj hw
    exact (decodeSel_selWord_bit lastPos b).trans (decodeBit_lastPos b)
  | reservedPos p b =>
    obtain rfl := Option.some.inj hw
    exact (decodeSel_selWord_bit p b).trans (decodeBit_of_lastPos_lt (of_decide_eq_true hi) b)
  | _ => cases hw

theorem decodeBit_wellFormed (p : Pos) (b : Bool) : (decodeBit p b).WellFormed := by
  rcases decodeBit_cases p b with ⟨hp, hb, e⟩ | ⟨hp, hb, e⟩ | ⟨hlow, hhigh, e⟩ | ⟨-, e⟩ | ⟨hp, e⟩ <;> rw [e]
  · simp [Instr.WellFormed, Instr.wellFormed, hb, show p < nSync from hp]
  · simp [Instr.WellFormed, Instr.wellFormed, hb, show p < nSync from hp]
  · simp [Instr.WellFormed, Instr.wellFormed, show nSync ≤ p from hlow, show p < lastPos from hhigh]
  · rfl
  · exact decide_eq_true (show lastPos < p from hp)

theorem decodeSel_wellFormed (w : Sel) : (decodeSel w).WellFormed := by
  unfold decodeSel
  split_ifs
  · rfl
  · rfl
  · rfl
  · exact decodeBit_wellFormed _ _

theorem encode_decodeBit (p : Pos) (b : Bool) : encode (decodeBit p b) = some (selWord false false true p b) := by
  rcases decodeBit_cases p b with ⟨-, -, e⟩ | ⟨-, -, e⟩ | ⟨-, -, e⟩ | ⟨rfl, e⟩ | ⟨-, e⟩ <;> rw [e] <;> rfl

/-- A selector word is formed from its fields (R61). -/
theorem selWord_fields (w : Sel) : selWord (selRst w) (selHalt w) (selValid w) (selPos w) (selBit w) = w := by
  apply BitVec.eq_of_getLsbD_eq
  intro i hi
  simp only [selWord, selRst, selHalt, selValid, selPos, selBit, BitVec.getLsbD_append, BitVec.getLsbD_ofBool,
    BitVec.getLsbD_extractLsb']
  interval_cases i <;> simp

/-- A row hits the words that carry its pattern's bits wherever its mask examines them. -/
theorem hits_of_getLsbD {r : SelRow} {w : Sel} (hr : r.pattern &&& r.mask = r.pattern)
    (h : ∀ i < 11, r.mask.getLsbD i = true → w.getLsbD i = r.pattern.getLsbD i) : r.hits w = true := by
  refine beq_iff_eq.mpr (hr ▸ BitVec.eq_of_getLsbD_eq fun i hi => ?_)
  rw [BitVec.getLsbD_and, BitVec.getLsbD_and]
  cases hm : r.mask.getLsbD i with
  | false => rw [Bool.and_false, Bool.and_false]
  | true => rw [h i hi hm]

/-- Two rows that want different values of a bit both examine. -/
abbrev RowsClash (r q : SelRow) : Prop := r.pattern &&& q.mask ≠ q.pattern &&& r.mask

/-- Clashing rows hit no common word: on the bits both examine the word would be both patterns. -/
theorem not_hits_of_rowsClash {r q : SelRow} (h : RowsClash r q) {w : Sel} (hr : r.hits w = true) : q.hits w = false := by
  refine Bool.eq_false_iff.mpr fun hq => h ?_
  rw [← beq_iff_eq.mp hr, ← beq_iff_eq.mp hq, BitVec.and_assoc, BitVec.and_assoc, BitVec.and_comm r.mask]

theorem selRows_pairwise_clash : selRows.Pairwise RowsClash := by decide

/-- Rows of which no two hit the same word: the ones that hit a word are one, if there is one. -/
theorem filter_hits_eq_singleton {rows : List SelRow} (hrows : rows.Pairwise RowsClash) {r : SelRow} (hr : r ∈ rows)
    {w : Sel} (hw : r.hits w = true) : (rows.filter fun q => q.hits w) = [r] := by
  have hmem : r ∈ rows.filter fun q => q.hits w := List.mem_filter.mpr ⟨hr, hw⟩
  have hclash := hrows.filter fun q => q.hits w
  have hhits : ∀ q ∈ rows.filter fun q => q.hits w, q.hits w = true := fun q hq => (List.mem_filter.mp hq).2
  match hl : rows.filter fun q => q.hits w with
  | [] => simp [hl] at hmem
  | [q] => simpa [hl, eq_comm] using hmem
  | q :: q' :: _ =>
    rw [hl] at hclash hhits
    have hno : q'.hits w = false := not_hits_of_rowsClash (List.rel_of_pairwise_cons hclash (by simp)) (hhits q (by simp))
    exact absurd (hhits q' (by simp)) (by simp [hno])

/-- A bit at a position matches a row of the operation it selects. -/
theorem exists_row_of_decodeBit (p : Pos) (b : Bool) :
    ∃ r ∈ selRows, r.hits (selWord false false true p b) = true ∧ r.mnemonic = (decodeBit p b).mnemonic := by
  have hwf := decodeBit_wellFormed p b
  have hw := encode_decodeBit p b
  rcases decodeBit_cases p b with ⟨-, -, e⟩ | ⟨-, -, e⟩ | ⟨-, -, e⟩ | ⟨-, e⟩ | ⟨-, e⟩ <;> rw [e] at hwf hw ⊢
  · exact Laws.EncodedRow.syncHit p b hwf _ hw
  · exact Laws.EncodedRow.syncMiss p b hwf _ hw
  · exact Laws.EncodedRow.collect p b hwf _ hw
  · exact Laws.EncodedRow.complete b hwf _ hw
  · exact Laws.EncodedRow.reservedPos p b hwf _ hw

/-- Every word matches a row of the operation it decodes to: the pins choose among the first three rows, the rest is a bit. -/
theorem exists_row_of_decodeSel (w : Sel) : ∃ r ∈ selRows, r.hits w = true ∧ r.mnemonic = (decodeSel w).mnemonic := by
  rw [decodeSel]
  split_ifs with hr hh hv
  · refine ⟨⟨"RESET", 0x400, 0x400⟩, by decide, hits_of_getLsbD (by decide) fun i hi hm => ?_, rfl⟩
    obtain rfl : i = 10 := (by decide : ∀ i < 11, (0x400 : Sel).getLsbD i = true → i = 10) i hi hm
    exact hr
  · refine ⟨⟨"HALTED", 0x200, 0x600⟩, by decide, hits_of_getLsbD (by decide) fun i hi hm => ?_, rfl⟩
    rcases (by decide : ∀ i < 11, (0x600 : Sel).getLsbD i = true → i = 10 ∨ i = 9) i hi hm with rfl | rfl
    · exact Bool.eq_false_iff.mpr hr
    · exact hh
  · refine ⟨⟨"IDLE", 0x000, 0x700⟩, by decide, hits_of_getLsbD (by decide) fun i hi hm => ?_, rfl⟩
    rcases (by decide : ∀ i < 11, (0x700 : Sel).getLsbD i = true → i = 10 ∨ i = 9 ∨ i = 8) i hi hm with rfl | rfl | rfl
    · exact Bool.eq_false_iff.mpr hr
    · exact Bool.eq_false_iff.mpr hh
    · exact (Bool.not_eq_true' _).mp hv
  · have hw : selWord false false true (selPos w) (selBit w) = w := by
      have hvalid : selValid w = true := by simpa using hv
      simpa [hr, hh, hvalid] using selWord_fields w
    have hrow := exists_row_of_decodeBit (selPos w) (selBit w)
    rwa [hw] at hrow

end Sys2Proof.Machine

namespace Sys2Proof.Proofs
open Sys2Proof.Machine

/-- Settles O19: each operation with a word is found again by the tests of the decoder. -/
theorem decodeOfEncodeGivesOperation : Obligations.DecodeOfEncodeGivesOperation :=
  fun _ _ => decodeSel_of_encode

/-- Settles O20: the tests of the decoder are the operand checks, and the decoded operation has a word. -/
theorem decodedOperationIsWellFormed : Obligations.DecodedOperationIsWellFormed := by
  intro w
  obtain ⟨w', hw'⟩ := Option.isSome_iff_exists.mp (encode_decodeSel_isSome w)
  exact ⟨decodeSel_wellFormed w, w', hw', decodeSel_of_encode (decodeSel_wellFormed w) hw'⟩

/-- Settles O21: the decoder on eleven words. -/
theorem selectorWordsDecode : Obligations.SelectorWordsDecode := by
  unfold Obligations.SelectorWordsDecode
  decide

/-- Settles O18: a row of the decoded operation hits the word, and no row that clashes with it does. -/
theorem everySelectorHasOneRow : Obligations.EverySelectorHasOneRow := by
  intro w
  obtain ⟨r, hr, hhits, hname⟩ := exists_row_of_decodeSel w
  rw [filter_hits_eq_singleton selRows_pairwise_clash hr hhits, List.map_singleton, hname]

end Sys2Proof.Proofs

/-! The invariant of 10_state.md R34 along steps, and runs on bits alone (95_test_vectors.md TH8, TH9). -/

namespace Sys2Proof.Machine

/-- The framer's operations on a bit keep the invariant (R34). -/
theorem exec_decodeBit_inv {s t : State} {b : Bool} (hs : Inv s) (h : exec (decodeBit s.pos b) s = .next t) : Inv t := by
  obtain ⟨hreset, hpos, hbuf⟩ := hs
  have hinc : (s.pos + 1).toNat = s.pos.toNat + 1 := toNat_pos_add_one hpos
  rcases exec_decodeBit_cases h with ⟨hp, -, rfl⟩ | ⟨-, -, rfl⟩ | ⟨hlow, hhigh, rfl⟩ | ⟨-, rfl⟩
  · have h8 : s.pos.toNat < 8 := hp
    have hle : (s.pos + 1).toNat ≤ 83 := by omega
    exact ⟨hreset, hle, fun k hk _ => hbuf k hk (by omega)⟩
  · exact ⟨hreset, Nat.zero_le _, fun _ _ _ => BitVec.getMsbD_zero⟩
  · have h8 : 8 ≤ s.pos.toNat := hlow
    have h83 : s.pos.toNat < 83 := hhigh
    have hle : (s.pos + 1).toNat ≤ 83 := by omega
    refine ⟨hreset, hle, fun k hk hlow' => ?_⟩
    change (s.pos + 1).toNat - 8 ≤ k at hlow'
    rw [setElem_getMsbD, decide_eq_true hk, Bool.true_and, if_neg (by omega)]
    exact hbuf k hk (by omega)
  · exact ⟨hreset, Nat.zero_le _, fun _ _ _ => BitVec.getMsbD_zero⟩

/-- Every step keeps the invariant (R34): of what a step can do only the framer's operations write `pos` or `buf` without
resetting them. -/
theorem step_inv {s t : State} (hs : Inv s) (h : step s = .next t) : Inv t := by
  rcases step_cases h with ⟨-, rfl⟩ | ⟨-, -, rfl⟩ | ⟨-, -, -, rfl⟩ | ⟨-, -, -, rfl⟩ | ⟨b, -, -, -, -, he⟩
  · exact resetCore_inv _
  · exact hs
  · exact hs
  · exact hs
  · exact exec_decodeBit_inv (s := s.consume) hs he

/-- The frame of every operation: none reads or writes the pending inputs (log entry 3). -/
theorem exec_keeps_inputs {i : Instr} {s t : State} (h : exec i s = .next t) : t.inputs = s.inputs := by
  cases i with
  | syncHit | syncMiss | collect | faultInput =>
    obtain ⟨-, rfl⟩ := ite_refused_eq_next.mp h
    rfl
  | reservedPos => cases h
  | complete bit => cases (execComplete_eq bit s).symm.trans h; rfl
  | csumGen => cases (execCsumGen_eq s).symm.trans h; rfl
  | decode => cases (execDecode_eq s).symm.trans h; rfl
  | _ => cases h; rfl

/-- A step takes the first pending input and leaves the others (20_memory.md R44). -/
theorem step_inputs {s t : State} (h : step s = .next t) : t.inputs = s.inputs.tail :=
  exec_keeps_inputs (guardStep_eq_next.mp h).2

/-- No selector word sets `halt` (10_state.md R24): none selects FAULT.INPUT. -/
theorem exec_decodeSel_halt {w : Sel} {s t : State} (h : exec (decodeSel w) s = .next t) (hs : s.halt = false) :
    t.halt = false := by
  rcases exec_halt_cases h with ⟨-, ht⟩ | ⟨v, hv, -⟩ | hkeep
  · exact ht
  · exact absurd hv (decodeSel_ne_faultInput w v)
  · exact hkeep.trans hs

/-- Every value that will be presented is a bit. -/
abbrev BitInputs (s : State) : Prop := ∀ x ∈ s.inputs, x.value = 0 ∨ x.value = 1

/-- With nothing but bits pending the next value presented is a bit; without any input it is the 0 of an edge without a bit. -/
theorem BitInputs.nextInput {s : State} (hs : BitInputs s) : s.nextInput.value = 0 ∨ s.nextInput.value = 1 := by
  unfold State.nextInput
  cases hi : s.inputs with
  | nil => exact .inl rfl
  | cons x rest => exact hs x (by simp [hi])

theorem BitInputs.step {s t : State} (hs : BitInputs s) (h : step s = .next t) : BitInputs t :=
  fun x hx => hs x (List.mem_of_mem_tail (step_inputs h ▸ hx))

/-- The framer's operations on a bit report no fault. -/
theorem out_ne_fault_of_exec_decodeBit {s t : State} {p : Pos} {b : Bool} (h : exec (decodeBit p b) s = .next t) (f : Fault) :
    t.out ≠ .fault f := by
  rcases exec_decodeBit_cases h with ⟨-, -, rfl⟩ | ⟨-, -, rfl⟩ | ⟨-, -, rfl⟩ | ⟨-, rfl⟩ <;> simp

/-- A step on a bit reports no fault (60_exceptions.md R170). -/
theorem out_ne_fault_of_step {s t : State} (hs : BitInputs s) (h : step s = .next t) (f : Fault) : t.out ≠ .fault f := by
  rcases step_cases h with ⟨-, rfl⟩ | ⟨-, -, rfl⟩ | ⟨-, -, -, rfl⟩ | ⟨-, -, hv, -⟩ | ⟨b, -, -, -, -, he⟩
  · simp [resetCore_eq]
  · simp [quiet_eq]
  · simp [quiet_eq]
  · have hvalue := hs.nextInput
    obtain ⟨h0, h1⟩ := asBit_eq_none.mp hv
    exact absurd hvalue (by simp [h0, h1])
  · exact out_ne_fault_of_exec_decodeBit he f

/-- A step on a bit leaves a machine that is not halted so: it is the step of a selector word. -/
theorem halt_of_step {s t : State} (hs : BitInputs s) (hh : s.halt = false) (h : step s = .next t) : t.halt = false := by
  obtain ⟨b, hb⟩ : ∃ b, s.nextInput.value = ofBit b := hs.nextInput.elim (⟨false, ·⟩) (⟨true, ·⟩)
  have hsel : select s = decodeSel (selWord s.nextInput.rst s.halt s.nextInput.valid s.pos b) := by
    simp [select, selectWith, hb]
  exact exec_decodeSel_halt (s := s.consume) (hsel ▸ (guardStep_eq_next.mp h).2) hh

end Sys2Proof.Machine

namespace Sys2Proof.Proofs
open Sys2Proof.Machine

/-- Settles O54: the invariant along the five things a step can do. -/
theorem stepKeepsInv : Obligations.StepKeepsInv := fun _ _ => step_inv

/-- Settles O55: the reset values meet the invariant. -/
theorem resetMeetsInv : Obligations.ResetMeetsInv :=
  ⟨⟨rfl, Nat.zero_le _, fun _ _ _ => BitVec.getMsbD_zero⟩, fun s => ⟨resetCore s, rfl, resetCore_inv s⟩⟩

/-- Settles O60: no selector word selects FAULT.INPUT, and by induction on the run every step is that of a selector word. -/
theorem bitInputsNeverHalt : Obligations.BitInputsNeverHalt := by
  refine ⟨fun _ _ _ => exec_decodeSel_halt, fun n => ?_⟩
  induction n with
  | zero =>
    rintro s t os hh - ⟨⟩
    simpa using hh
  | succ n ih =>
    intro s t os hh hs h
    obtain ⟨u, os', hstep, hrun, rfl⟩ := runOutputs_succ_eq_some h
    obtain ⟨ht, hos⟩ := ih u t os' (halt_of_step hs hh hstep) (BitInputs.step hs hstep) hrun
    exact ⟨ht, List.forall_mem_cons.mpr ⟨fun v => out_ne_fault_of_step hs hstep _, hos⟩⟩

end Sys2Proof.Proofs

/-! The deinterleave table against its inverse, and the blocks that DEINT and SPLIT read through it (41_deinterleaver.md). -/

namespace Sys2Proof.Machine

theorem deintInverse_lt {p : Nat} (h : p < 76) : deintInverse p < 76 := by
  unfold deintInverse
  omega

theorem deintIndex_deintInverse {p : Nat} (h : p < 76) : deintIndex (deintInverse p) = p := by
  rw [deintIndex_eq_strideIndex (deintInverse_lt h), strideIndex, deintInverse]
  omega

/-- The positions of the 1s of `raw_bits`, read through the table, are those of the block in another order (TH1). -/
theorem map_deintIndex_ones_perm (block : Bits76) :
    (((List.range 76).filter fun i => (deinterleave block).getMsbD i).map deintIndex).Perm
      ((List.range 76).filter fun p => block.getMsbD p) := by
  have hread : ∀ i ∈ List.range 76, (deinterleave block).getMsbD i = block.getMsbD (deintIndex i) := fun i hi => by
    rw [deinterleave_getMsbD, decide_eq_true (List.mem_range.mp hi), Bool.true_and]
  have hmap : ((List.range 76).filter fun i => block.getMsbD (deintIndex i)).map deintIndex =
      ((List.range 76).map deintIndex).filter fun p => block.getMsbD p := by
    rw [List.filter_map]
    rfl
  rw [List.filter_congr hread, hmap]
  exact map_deintIndex_perm.filter _

/-- The block index of an information bit (R104). -/
theorem deintIndex_even {j : Nat} (h : j < 38) : deintIndex (2 * j) = if j % 2 = 0 then j / 2 else 38 + j / 2 := by
  rw [deintIndex_eq_strideIndex (by omega), strideIndex]
  split_ifs <;> omega

/-- The block index of a parity bit (R104). -/
theorem deintIndex_odd {j : Nat} (h : j < 38) :
    deintIndex (2 * j + 1) = if j % 2 = 0 then 19 + j / 2 else 57 + j / 2 := by
  rw [deintIndex_eq_strideIndex (by omega), strideIndex]
  split_ifs <;> omega

theorem splitInfo_deinterleave_getMsbD (block : Bits76) {j : Nat} (h : j < 38) :
    (splitInfo (deinterleave block)).getMsbD j = block.getMsbD (deintIndex (2 * j)) := by
  simp [h, show 2 * j < 76 by omega]

theorem splitParity_deinterleave_getMsbD (block : Bits76) {j : Nat} (h : j < 38) :
    (splitParity (deinterleave block)).getMsbD j = block.getMsbD (deintIndex (2 * j + 1)) := by
  simp [h, show 2 * j + 1 < 76 by omega]

end Sys2Proof.Machine

namespace Sys2Proof.Proofs
open Sys2Proof.Machine

/-- Settles O23: the table is its closed form, which the inverse undoes on either side. -/
theorem deintTableClosedForm : Obligations.DeintTableClosedForm :=
  ⟨fun _ hi => ⟨deintIndex_eq_strideIndex hi, deintIndex_lt hi, deintInverse_deintIndex hi⟩,
    fun _ hp => ⟨rfl, deintInverse_lt hp, deintIndex_deintInverse hp⟩⟩

/-- Settles O25: the table permutes the positions of the 1s. -/
theorem deintKeepsNumberOfOnes : Obligations.DeintKeepsNumberOfOnes := fun block => by
  rw [← (map_deintIndex_ones_perm block).length_eq, List.length_map]

/-- Settles O27: SPLIT reads what DEINT has written, at the even and at the odd positions. -/
theorem composedBlockMap : Obligations.ComposedBlockMap := by
  refine fun s => ⟨_, rfl, fun j hj => ?_⟩
  rw [← deintIndex_even hj, ← deintIndex_odd hj]
  exact ⟨splitInfo_deinterleave_getMsbD _ hj, splitParity_deinterleave_getMsbD _ hj⟩

end Sys2Proof.Proofs

/-! Stages 6 to 10 in any order (30_encoding.md section 9). -/

namespace Sys2Proof.Machine

/-- What a field stage writes into the transients (R125 to R128, R141); every other operation is given none. -/
def fieldEffect : Instr → Pipe → Pipe
  | .xaddr, p => { p with address := addressOf p.infoBits }
  | .xgroup, p => { p with groupFlag := groupFlagOf p.infoBits }
  | .xcmd, p => { p with command := commandOf p.infoBits }
  | .xcsum, p => { p with checksumReceived := checksumReceivedOf p.infoBits }
  | .csumGen, p => pipeAfterCsumGen p
  | _, p => p

theorem mem_fieldStages {i : Instr} :
    i ∈ fieldStages ↔ i = .xaddr ∨ i = .xgroup ∨ i = .xcmd ∨ i = .xcsum ∨ i = .csumGen := by
  simp [fieldStages]

theorem exec_fieldStage {i : Instr} (hi : i ∈ fieldStages) (s : State) :
    exec i s = .next (s.setPipe (fieldEffect i s.pipe)) := by
  rcases mem_fieldStages.mp hi with rfl | rfl | rfl | rfl | rfl
  · rfl
  · rfl
  · rfl
  · rfl
  · exact execCsumGen_eq s

/-- Two field stages read the information bits only and write different fields, so their order does not matter. -/
theorem fieldEffect_comm {i j : Instr} (hi : i ∈ fieldStages) (hj : j ∈ fieldStages) (p : Pipe) :
    fieldEffect i (fieldEffect j p) = fieldEffect j (fieldEffect i p) := by
  rcases mem_fieldStages.mp hi with rfl | rfl | rfl | rfl | rfl <;>
    rcases mem_fieldStages.mp hj with rfl | rfl | rfl | rfl | rfl <;> rfl

/-- Field stages one after another fold their effects over the transients. -/
theorem execAll_fieldStages_eq_foldl {l : List Instr} (hl : ∀ i ∈ l, i ∈ fieldStages) (s : State) :
    execAll l s = .next (s.setPipe (l.foldl (fun p i => fieldEffect i p) s.pipe)) := by
  induction l generalizing s with
  | nil => rfl
  | cons i l ih =>
    obtain ⟨hi, hl⟩ := List.forall_mem_cons.mp hl
    rw [execAll, exec_fieldStage hi, andThen_next, ih hl]
    rfl

end Sys2Proof.Machine

namespace Sys2Proof.Proofs
open Sys2Proof.Machine

/-- Settles O48: the effects of the field stages commute, so their fold is that of any order. -/
theorem fieldStagesCommute : Obligations.FieldStagesCommute := by
  refine ⟨fun l s hl => ?_, fun s => ⟨_, execAll_fieldStages_eq_foldl (fun _ => id) s⟩⟩
  have hmem : ∀ i ∈ l, i ∈ fieldStages := fun _ hi => hl.subset hi
  have hfold : l.foldl (fun p i => fieldEffect i p) s.pipe = fieldStages.foldl (fun p i => fieldEffect i p) s.pipe :=
    hl.foldl_eq' (fun _ hi _ hj p => fieldEffect_comm (hmem _ hj) (hmem _ hi) p) s.pipe
  rw [execAll_fieldStages_eq_foldl hmem, execAll_fieldStages_eq_foldl (fun _ => id), hfold]

end Sys2Proof.Proofs

/-! Fields and flips: the slices of a concatenation and of a word with one element inverted (00_scope.md R8), and the fields of
the information word of a tuple (43_field_extractor.md R131). -/

namespace Sys2Proof.Machine

/-- A slice of the upper part. -/
theorem slice_append_left {m n a len : Nat} (x : BitVec m) (y : BitVec n) (h : a + len ≤ m) :
    slice (x ++ y) a len = slice x a len :=
  seqOf_congr fun i hi => by simp [BitVec.getMsbD_append, show a + i < m by omega]

/-- The last slice of a concatenation is its lower part. -/
theorem slice_append_right {m n : Nat} (x : BitVec m) (y : BitVec n) : slice (x ++ y) m n = y :=
  ext_getMsbD fun i hi => by simp [BitVec.getMsbD_append, hi]

/-- Up to the command, the information word is that of the fields before the checksum (R65, R131). -/
theorem slice_infoWord {start len : Nat} (h : start + len ≤ 27) (a : Addr) (g : Bool) (c k : Bits10) (l : Bool) :
    slice (infoWord a g c k l) start len =
      slice ((a ^^^ 0xCC38#16) ++ BitVec.ofBool (!g) ++ (c ^^^ 0x0D5#10)) start len :=
  (slice_append_left _ (BitVec.ofBool l) (by omega)).trans (slice_append_left _ (k ^^^ 0x3FF#10) h)

theorem scrambledAddress_infoWord (a : Addr) (g : Bool) (c k : Bits10) (l : Bool) :
    scrambledAddress (infoWord a g c k l) = a ^^^ 0xCC38#16 :=
  calc slice (infoWord a g c k l) 0 16
    _ = slice ((a ^^^ 0xCC38#16) ++ BitVec.ofBool (!g) ++ (c ^^^ 0x0D5#10)) 0 16 := slice_infoWord (by omega) a g c k l
    _ = slice ((a ^^^ 0xCC38#16) ++ BitVec.ofBool (!g)) 0 16 := slice_append_left _ _ (by omega)
    _ = a ^^^ 0xCC38#16 := slice_zero_append _ _

theorem groupBit_infoWord (a : Addr) (g : Bool) (c k : Bits10) (l : Bool) : groupBit (infoWord a g c k l) = !g := by
  have hslice : slice (infoWord a g c k l) 16 1 = BitVec.ofBool (!g) :=
    calc slice (infoWord a g c k l) 16 1
      _ = slice ((a ^^^ 0xCC38#16) ++ BitVec.ofBool (!g) ++ (c ^^^ 0x0D5#10)) 16 1 := slice_infoWord (by omega) a g c k l
      _ = slice ((a ^^^ 0xCC38#16) ++ BitVec.ofBool (!g)) 16 1 := slice_append_left _ _ (by omega)
      _ = BitVec.ofBool (!g) := slice_append_right _ _
  simpa [groupBit] using congrArg (BitVec.getMsbD · 0) hslice

theorem scrambledCommand_infoWord (a : Addr) (g : Bool) (c k : Bits10) (l : Bool) :
    scrambledCommand (infoWord a g c k l) = c ^^^ 0x0D5#10 :=
  (slice_infoWord (by omega) a g c k l).trans (slice_append_right _ _)

theorem scrambledChecksum_infoWord (a : Addr) (g : Bool) (c k : Bits10) (l : Bool) :
    scrambledChecksum (infoWord a g c k l) = k ^^^ 0x3FF#10 :=
  (slice_append_left _ (BitVec.ofBool l) (by omega)).trans (slice_append_right _ _)

theorem addressOf_infoWord (a : Addr) (g : Bool) (c k : Bits10) (l : Bool) : addressOf (infoWord a g c k l) = a := by
  rw [addressOf, scrambledAddress_infoWord, BitVec.xor_assoc, BitVec.xor_assoc]
  exact BitVec.xor_zero

theorem groupFlagOf_infoWord (a : Addr) (g : Bool) (c k : Bits10) (l : Bool) : groupFlagOf (infoWord a g c k l) = g := by
  rw [groupFlagOf, groupBit_infoWord, Bool.not_not]

theorem commandOf_infoWord (a : Addr) (g : Bool) (c k : Bits10) (l : Bool) : commandOf (infoWord a g c k l) = c := by
  rw [commandOf, scrambledCommand_infoWord, BitVec.xor_assoc, BitVec.xor_assoc]
  exact BitVec.xor_zero

theorem checksumReceivedOf_infoWord (a : Addr) (g : Bool) (c k : Bits10) (l : Bool) :
    checksumReceivedOf (infoWord a g c k l) = k := by
  rw [checksumReceivedOf, scrambledChecksum_infoWord, BitVec.xor_assoc]
  exact BitVec.xor_zero

/-- An inverted element, as an XOR. -/
theorem flipElem_getMsbD_eq_xor {n : Nat} (S : BitVec n) (k : Nat) {i : Nat} (hi : i < n) :
    (flipElem S k).getMsbD i = (S.getMsbD i ^^ decide (i = k)) := by
  by_cases h : i = k
  · simp [h ▸ hi, h]
  · simp [hi, h]

/-- A slice without the inverted element is as it was. -/
theorem slice_flipElem {n k a len : Nat} (S : BitVec n) (hlen : a + len ≤ n) (h : k < a ∨ a + len ≤ k) :
    slice (flipElem S k) a len = slice S a len :=
  seqOf_congr fun i hi => by
    rw [flipElem_getMsbD_eq_xor S k (by omega), decide_eq_false (by omega), Bool.xor_false]

end Sys2Proof.Machine

namespace Sys2Proof.Proofs
open Sys2Proof.Machine

/-- Settles O39: each field's slice of the built word, and the constants of its XORs undone. -/
theorem fieldsRoundTrip : Obligations.FieldsRoundTrip := fun a g c k l =>
  ⟨addressOf_infoWord a g c k l, groupFlagOf_infoWord a g c k l, commandOf_infoWord a g c k l,
    checksumReceivedOf_infoWord a g c k l⟩

end Sys2Proof.Proofs

/-! The checksum as an XOR of constants, and what one inverted bit does to it (44_checksum.md R142, R144, R145). -/

namespace Sys2Proof.Machine

/-- Register `A` never becomes 0 (R140): where a 1 is shifted out the polynomial sets the top bit, and else only a zero
shifts to zero. -/
theorem lfsrNextA_ne_zero {a : Bits10} (ha : a ≠ 0) : lfsrNextA a ≠ 0 := by
  rw [lfsrNextA]
  split_ifs with hbit
  · intro h
    have htop := congrArg (BitVec.getLsbD · 9) h
    simp [lfsrPoly] at htop
  · intro h
    refine ha (BitVec.eq_of_getLsbD_eq fun i _ => ?_)
    cases i with
    | zero => simpa using hbit
    | succ i =>
      have hi := congrArg (BitVec.getLsbD · i) h
      simpa [Nat.add_comm] using hi

/-- The last of `n + 1` rounds (R141). -/
theorem lfsrRun_succ (info : Bits38) (n j : Nat) (ab : Bits10 × Bits10) :
    lfsrRun info (n + 1) j ab =
      (lfsrNextA (lfsrRun info n j ab).1,
        lfsrNextB (lfsrNextA (lfsrRun info n j ab).1) (lfsrRun info n j ab).2 (coveredBit info (j + n))) := by
  induction n generalizing j ab with
  | zero => rfl
  | succ n ih =>
    rw [lfsrRun, ih, lfsrRun, show j + 1 + n = j + (n + 1) by omega]

/-- Register `A` runs on its own: it sees no information bit (R140). -/
theorem lfsrRun_fst (info : Bits38) (n j : Nat) (ab : Bits10 × Bits10) :
    (lfsrRun info n j ab).1 = lfsrNextA^[n] ab.1 := by
  induction n with
  | zero => rfl
  | succ n ih => rw [lfsrRun_succ, ih, Function.iterate_succ_apply']

/-- The constants of R142 are the values of `A`. -/
theorem checksumK_getD {j : Nat} (h : j < 27) : checksumK.getD j 0 = lfsrNextA^[j + 1] lfsrA0 := by
  have hK : checksumK = (List.range 27).map fun j => lfsrNextA^[j + 1] lfsrA0 := by decide
  rw [hK, List.getD_eq_getElem?_getD, List.getElem?_map, List.getElem?_range h]
  rfl

theorem checksumK_getD_ne_zero {j : Nat} (h : j < 27) : checksumK.getD j 0 ≠ 0 := by
  have hmem : checksumK.getD j 0 ∈ checksumK := by
    rw [List.getD_eq_getElem _ _ (show j < checksumK.length from h)]
    exact List.getElem_mem _
  exact fun h0 => (by decide : (0 : Bits10) ∉ checksumK) (h0 ▸ hmem)

/-- The XOR of the constants that the 1 bits among the first `n` select; `selectedK` is that of the first 27 (R142). -/
def selectedKBelow (info : Bits38) (n : Nat) : Bits10 :=
  (List.range n).foldl (fun acc j => if info.getMsbD j then acc ^^^ checksumK.getD j 0 else acc) 0

theorem selectedK_eq (info : Bits38) : selectedK info = selectedKBelow info 27 := rfl

theorem selectedKBelow_succ (info : Bits38) (n : Nat) :
    selectedKBelow info (n + 1) =
      if info.getMsbD n then selectedKBelow info n ^^^ checksumK.getD n 0 else selectedKBelow info n := by
  rw [selectedKBelow, List.range_succ, List.foldl_append]
  rfl

/-- Register `B` after `n` rounds has absorbed the constants that the 1 bits among the first `n` select (R141, R142). -/
theorem lfsrRun_snd (info : Bits38) {n : Nat} (h : n ≤ 27) :
    (lfsrRun info n 0 (lfsrA0, lfsrB0)).2 = lfsrB0 ^^^ selectedKBelow info n := by
  induction n with
  | zero => exact BitVec.xor_zero.symm
  | succ n ih =>
    rw [lfsrRun_succ, lfsrRun_fst, ← Function.iterate_succ_apply' lfsrNextA, ← checksumK_getD h, ih (by omega),
      selectedKBelow_succ, lfsrNextB, coveredBit, Nat.zero_add]
    split_ifs
    · exact BitVec.xor_assoc _ _ _
    · rfl

/-- The computed checksum in terms of the constants (R142). -/
theorem checksumOf_eq_xor (info : Bits38) : checksumOf info = lfsrB0 ^^^ selectedK info := lfsrRun_snd info le_rfl

/-- The checksum covers the first 27 information bits alone (R141). -/
theorem checksumOf_congr {info info' : Bits38} (h : ∀ j < 27, info.getMsbD j = info'.getMsbD j) :
    checksumOf info = checksumOf info' := by
  have hK : selectedK info = selectedK info' :=
    List.foldl_ext _ _ _ fun acc j hj => by rw [h j (List.mem_range.mp hj)]
  rw [checksumOf_eq_xor, checksumOf_eq_xor, hK]

theorem checksumOf_flip_uncovered (info : Bits38) {k : Nat} (h : 27 ≤ k) : checksumOf (flipElem info k) = checksumOf info :=
  checksumOf_congr fun j hj => by
    rw [flipElem_getMsbD_eq_xor info k (by omega), decide_eq_false (by omega), Bool.xor_false]

/-- An inverted bit adds or takes away its own constant. -/
theorem selectedKBelow_flip (info : Bits38) (k : Nat) {n : Nat} (h : n ≤ 27) :
    selectedKBelow (flipElem info k) n = selectedKBelow info n ^^^ if k < n then checksumK.getD k 0 else 0#10 := by
  induction n with
  | zero => exact BitVec.xor_zero.symm
  | succ n ih =>
    rw [selectedKBelow_succ, selectedKBelow_succ, ih (by omega), flipElem_getMsbD_eq_xor info k (by omega)]
    rcases Nat.lt_trichotomy k n with hk | rfl | hk
    · have hne : ¬ n = k := by omega
      rw [if_pos hk, if_pos (show k < n + 1 by omega), decide_eq_false hne, Bool.xor_false]
      split_ifs
      · rw [BitVec.xor_assoc, BitVec.xor_assoc, BitVec.xor_comm (checksumK.getD k 0)]
      · rfl
    · cases info.getMsbD k <;> simp
    · have hne : ¬ n = k := by omega
      have hnlt : ¬ k < n + 1 := by omega
      have hnlt' : ¬ k < n := by omega
      simp [hne, hnlt, hnlt']

/-- An inverted covered bit changes the computed checksum by its constant (R145). -/
theorem checksumOf_flip_covered (info : Bits38) {k : Nat} (h : k < 27) :
    checksumOf (flipElem info k) = checksumOf info ^^^ checksumK.getD k 0 := by
  rw [checksumOf_eq_xor, checksumOf_eq_xor, selectedK_eq, selectedK_eq, selectedKBelow_flip info k le_rfl, if_pos h,
    BitVec.xor_assoc]

theorem checksumOf_flip_covered_ne (info : Bits38) {k : Nat} (h : k < 27) :
    checksumOf (flipElem info k) ≠ checksumOf info := by
  rw [checksumOf_flip_covered info h]
  simpa using checksumK_getD_ne_zero h

/-- The received checksum reads the information bits 27 to 36 alone (R128). -/
theorem checksumReceivedOf_flip_other (info : Bits38) {k : Nat} (h : k < 27 ∨ 37 ≤ k) :
    checksumReceivedOf (flipElem info k) = checksumReceivedOf info := by
  have hslice : slice (flipElem info k) 27 10 = slice info 27 10 := slice_flipElem info (by omega) (by omega)
  simp only [checksumReceivedOf, scrambledChecksum, hslice]

theorem checksumReceivedOf_flip_ne (info : Bits38) {k : Nat} (hlow : 27 ≤ k) (hhigh : k ≤ 36) :
    checksumReceivedOf (flipElem info k) ≠ checksumReceivedOf info := by
  intro h
  have hslice : slice (flipElem info k) 27 10 = slice info 27 10 := (BitVec.xor_left_inj csumInv).mp h
  have hk := getMsbD_eq_of_slice_eq hslice (show k - 27 < 10 by omega)
  rw [show 27 + (k - 27) = k by omega, flipElem_getMsbD_eq_xor info k (by omega)] at hk
  simp at hk

/-- The check in terms of the received bits (R144). -/
theorem checksumValidOf_received_iff (info : Bits38) (computed : Bits10) :
    checksumValidOf (checksumReceivedOf info) computed = true ↔ scrambledChecksum info = computed ^^^ csumInv := by
  rw [checksumValidOf_iff, checksumReceivedOf]
  constructor
  · rintro rfl
    simp
  · intro h
    simp [h]

/-- From a valid word one inverted bit of the first 37 changes one of the two checksums and not the other (R145). -/
theorem checksumValidOf_flip (info : Bits38) (hvalid : checksumValidOf (checksumReceivedOf info) (checksumOf info) = true)
    {k : Nat} (h : k ≤ 36) :
    checksumValidOf (checksumReceivedOf (flipElem info k)) (checksumOf (flipElem info k)) = false := by
  have heq := checksumValidOf_iff.mp hvalid
  refine Bool.eq_false_iff.mpr fun hflip => ?_
  have heq' := checksumValidOf_iff.mp hflip
  by_cases hk : k < 27
  · rw [checksumReceivedOf_flip_other info (.inl hk), heq] at heq'
    exact checksumOf_flip_covered_ne info hk heq'.symm
  · rw [checksumOf_flip_uncovered info (by omega), ← heq] at heq'
    exact checksumReceivedOf_flip_ne info (by omega) h heq'

end Sys2Proof.Machine

namespace Sys2Proof.Proofs
open Sys2Proof.Machine

/-- Settles O42: register `A` runs through the constants, and `B` absorbs those that the 1 bits select. -/
theorem checksumIsXorOfConstants : Obligations.ChecksumIsXorOfConstants := by
  refine ⟨fun s t d h hA => ?_, by decide, by decide, rfl, fun info j hj => ?_,
    fun s => ⟨_, execCsumGen_eq s, checksumOf_eq_xor s.pipe.infoBits⟩⟩
  · cases h
    exact lfsrNextA_ne_zero hA
  · rw [lfsrRun_fst, checksumK_getD hj]
    rfl

/-- Settles O44: an inverted bit 0 to 26 moves the computed checksum, 27 to 36 the received one, and 37 neither. -/
theorem checksumDetectsSingleBit : Obligations.ChecksumDetectsSingleBit := by
  refine ⟨checksumValidOf_received_iff, fun info => ⟨fun j hj => ?_, fun j hlow hhigh => ?_, ?_, fun hvalid j hj => ?_⟩⟩
  · exact ⟨checksumOf_flip_covered info hj, checksumOf_flip_covered_ne info hj, checksumReceivedOf_flip_other info (.inl hj)⟩
  · exact ⟨checksumReceivedOf_flip_ne info hlow hhigh, checksumOf_flip_uncovered info hlow⟩
  · exact ⟨checksumOf_flip_uncovered info (by omega), checksumReceivedOf_flip_other info (.inr le_rfl)⟩
  · exact checksumValidOf_flip info hvalid hj

end Sys2Proof.Proofs

/-! Received errors (42_parity_corrector.md section 4): what the correction pass makes of a word whose syndrome was zero before
one or two elements were inverted (R117, R118), and what a zero syndrome says (R111, R119). -/

namespace Sys2Proof.Machine

/-- Where TOGGLE mode inverts a bit, for a syndrome given element by element (R112). -/
def pairStart (q : Nat → Bool) (i : Nat) : Bool := decide (i ≤ 36) && (q i && q (i + 1))

theorem pairAt_eq_pairStart {syn : Bits38} {q : Nat → Bool} (h : ∀ i < 38, syn.getMsbD i = q i) (i : Nat) :
    pairAt syn i = pairStart q i := by
  by_cases hi : i ≤ 36
  · rw [pairAt, pairStart, h i (by omega), h (i + 1) (by omega)]
  · simp [pairAt, pairStart, hi]

/-- Which elements of a word are inverted: none, one, or two. -/
abbrev noError : Nat → Bool := fun _ => false
abbrev errorAt (k : Nat) : Nat → Bool := fun i => decide (i = k)
abbrev errorsAt (k m : Nat) : Nat → Bool := fun i => errorAt k i ^^ errorAt m i

/-- The correction pass in terms of errors: with `e` inverted in the information bits and the syndrome `q`, what is inverted
afterwards is `r`, when the pairs of `q` are the difference (R112, R113). -/
theorem repaired_eq_of_errors {fv : Bool} {info got par want : Bits38} {e q r : Nat → Bool}
    (hgot : ∀ i < 38, got.getMsbD i = (info.getMsbD i ^^ e i))
    (hsyn : ∀ i < 38, (syndromeOf par (parityOf got)).getMsbD i = q i)
    (hwant : ∀ i < 38, want.getMsbD i = (info.getMsbD i ^^ r i))
    (hpairs : ∀ i < 38, pairStart q i = (e i ^^ r i)) : repaired fv got par = want := by
  refine ext_getMsbD fun i hi => ?_
  rw [repaired_getMsbD fv got par i hi, pairAt_eq_pairStart hsyn, hgot i hi, hwant i hi, hpairs i hi]
  simp

theorem getMsbD_eq_xor_noError {n : Nat} (S : BitVec n) : ∀ i < n, S.getMsbD i = (S.getMsbD i ^^ noError i) :=
  fun _ _ => (Bool.xor_false _).symm

theorem flipElem_getMsbD_eq_xor_errorAt {n : Nat} (S : BitVec n) (k : Nat) :
    ∀ i < n, (flipElem S k).getMsbD i = (S.getMsbD i ^^ errorAt k i) :=
  fun _ => flipElem_getMsbD_eq_xor S k

theorem flipElem_flipElem_getMsbD {n : Nat} (S : BitVec n) (k m : Nat) :
    ∀ i < n, (flipElem (flipElem S k) m).getMsbD i = (S.getMsbD i ^^ errorsAt k m i) := by
  intro i hi
  rw [flipElem_getMsbD_eq_xor _ m hi, flipElem_getMsbD_eq_xor S k hi, Bool.xor_assoc]

section
variable {info par : Bits38} (h0 : syndromeOf par (parityOf info) = 0)
include h0

theorem syndrome_of_info_error (k : Nat) : ∀ i < 38,
    (syndromeOf par (parityOf (flipElem info k))).getMsbD i = decide (i = k ∨ i = k + 1) := by
  intro i hi
  rw [syndrome_flip_info info par k i hi, h0]
  simp

theorem syndrome_of_two_info_errors (k m : Nat) : ∀ i < 38,
    (syndromeOf par (parityOf (flipElem (flipElem info k) m))).getMsbD i =
      (decide (i = k ∨ i = k + 1) ^^ decide (i = m ∨ i = m + 1)) := by
  intro i hi
  rw [syndrome_flip_info _ par m i hi, syndrome_of_info_error h0 k i hi]

theorem syndrome_of_parity_error (k : Nat) : ∀ i < 38,
    (syndromeOf (flipElem par k) (parityOf info)).getMsbD i = errorAt k i := by
  intro i hi
  rw [syndrome_flip_parity info par k i hi, h0]
  simp

theorem syndrome_of_two_parity_errors (k m : Nat) : ∀ i < 38,
    (syndromeOf (flipElem (flipElem par k) m) (parityOf info)).getMsbD i = errorsAt k m i := by
  intro i hi
  rw [syndrome_flip_parity info _ m i hi, syndrome_of_parity_error h0 k i hi]

theorem syndrome_of_no_error : ∀ i < 38, (syndromeOf par (parityOf info)).getMsbD i = noError i := by
  simp [h0]

/-- Nothing is inverted (R117 (a)). -/
theorem repaired_of_no_error (fv : Bool) : repaired fv info par = info := by
  refine repaired_eq_of_errors (getMsbD_eq_xor_noError _) (syndrome_of_no_error h0)
    (getMsbD_eq_xor_noError _) fun i hi => ?_
  unfold pairStart
  grind

/-- An information error before the last is repaired: its pair starts where it is (R117 (b)). -/
theorem repaired_of_info_error (fv : Bool) {k : Nat} (hk : k ≤ 36) : repaired fv (flipElem info k) par = info := by
  refine repaired_eq_of_errors (flipElem_getMsbD_eq_xor_errorAt _ _) (syndrome_of_info_error h0 k)
    (getMsbD_eq_xor_noError _) fun i hi => ?_
  unfold pairStart
  grind

/-- An error in the last information bit stays: no pair starts there (R117 (c)). -/
theorem repaired_of_last_error (fv : Bool) : repaired fv (flipElem info 37) par = flipElem info 37 := by
  refine repaired_eq_of_errors (flipElem_getMsbD_eq_xor_errorAt _ _) (syndrome_of_info_error h0 37)
    (flipElem_getMsbD_eq_xor_errorAt _ _) fun i hi => ?_
  unfold pairStart
  grind

/-- One parity error makes no pair (R117 (d)). -/
theorem repaired_of_parity_error (fv : Bool) (k : Nat) : repaired fv info (flipElem par k) = info := by
  refine repaired_eq_of_errors (getMsbD_eq_xor_noError _) (syndrome_of_parity_error h0 k)
    (getMsbD_eq_xor_noError _) fun i hi => ?_
  unfold pairStart
  grind

/-- Two information errors at least 3 apart make two pairs that do not touch (R118 (a)). -/
theorem repaired_of_far_info_errors (fv : Bool) {k m : Nat} (hkm : k + 3 ≤ m) (hm : m ≤ 36) :
    repaired fv (flipElem (flipElem info k) m) par = info := by
  refine repaired_eq_of_errors (flipElem_flipElem_getMsbD _ _ _) (syndrome_of_two_info_errors h0 k m)
    (getMsbD_eq_xor_noError _) fun i hi => ?_
  unfold pairStart
  grind

/-- Adjacent information errors cancel in the syndrome between them, so no pair is left and they stay (R118 (b)). -/
theorem repaired_of_adjacent_info_errors (fv : Bool) (k : Nat) :
    repaired fv (flipElem (flipElem info k) (k + 1)) par = flipElem (flipElem info k) (k + 1) := by
  refine repaired_eq_of_errors (flipElem_flipElem_getMsbD _ _ _) (syndrome_of_two_info_errors h0 k (k + 1))
    (flipElem_flipElem_getMsbD _ _ _) fun i hi => ?_
  unfold pairStart
  grind

/-- Information errors two apart make a run of four 1s, which inverts the bit between them too (R118 (c)). -/
theorem repaired_of_info_errors_two_apart (fv : Bool) {k : Nat} (hk : k ≤ 34) :
    repaired fv (flipElem (flipElem info k) (k + 2)) par = flipElem info (k + 1) := by
  refine repaired_eq_of_errors (flipElem_flipElem_getMsbD _ _ _) (syndrome_of_two_info_errors h0 k (k + 2))
    (flipElem_getMsbD_eq_xor_errorAt _ _) fun i hi => ?_
  unfold pairStart
  grind

/-- Two adjacent parity errors look like an information error (R118 (d)). -/
theorem repaired_of_adjacent_parity_errors (fv : Bool) {k : Nat} (hk : k ≤ 36) :
    repaired fv info (flipElem (flipElem par k) (k + 1)) = flipElem info k := by
  refine repaired_eq_of_errors (getMsbD_eq_xor_noError _) (syndrome_of_two_parity_errors h0 k (k + 1))
    (flipElem_getMsbD_eq_xor_errorAt _ _) fun i hi => ?_
  unfold pairStart
  grind

end

/-- In a run of 1s every element but the last starts a pair (R118 (e)). -/
theorem correctBits_run {info syn : Bits38} (fv : Bool) {i : Nat} (hi : i ≤ 36) (h : syn.getMsbD i = true)
    (h' : syn.getMsbD (i + 1) = true) : (correctBits .toggle fv info syn).getMsbD i = !info.getMsbD i := by
  have hpair : pairAt syn i = true := (pairAt_iff hi).mpr ⟨h, h'⟩
  rw [correctBits_getMsbD, if_pos hpair, corrected_toggle, decide_eq_true (by omega), Bool.true_and]

theorem syndromeOf_eq_zero_iff {parity calculated : Bits38} : syndromeOf parity calculated = 0 ↔ parity = calculated :=
  BitVec.xor_eq_zero_iff

/-- Of an information error at least the syndrome bit at its own index shows (R119). -/
theorem syndrome_ne_zero_of_info_error (info : Bits38) {k : Nat} (hk : k < 38) :
    syndromeOf (parityOf info) (parityOf (flipElem info k)) ≠ 0 := by
  intro h
  have hsyn := syndrome_of_info_error (syndromeOf_eq_zero_iff.mpr (rfl : parityOf info = parityOf info)) k k hk
  simp [h] at hsyn

/-- An information error together with the two parity errors it would show as goes unseen (R119). -/
theorem syndrome_eq_zero_of_masked_error (info : Bits38) (k : Nat) :
    syndromeOf (flipElem (flipElem (parityOf info) k) (k + 1)) (parityOf (flipElem info k)) = 0 := by
  refine syndromeOf_eq_zero_iff.mpr (ext_getMsbD fun i hi => ?_)
  rw [flipElem_flipElem_getMsbD _ k (k + 1) i hi, parityOf_flip info k i hi]
  grind

end Sys2Proof.Machine

namespace Sys2Proof.Proofs
open Sys2Proof.Machine

/-- Settles O31: the syndrome and the correction of each single error, and the fields that bit 37 is no part of. -/
theorem singleErrorCases : Obligations.SingleErrorCases := by
  refine fun info par fv h0 => ⟨repaired_of_no_error h0 fv,
    fun k hk => ⟨syndrome_of_info_error h0 k, repaired_of_info_error h0 fv hk⟩, fun i hi => ?_, repaired_of_last_error h0 fv,
    ⟨?_, ?_, ?_, checksumReceivedOf_flip_other info (by omega), checksumOf_flip_uncovered info (by omega)⟩,
    fun k _ => ⟨syndrome_of_parity_error h0 k, repaired_of_parity_error h0 fv k⟩⟩
  · rw [syndrome_of_info_error h0 37 i hi]
    simp [show i ≠ 38 by omega]
  · have haddress : slice (flipElem info 37) 0 16 = slice info 0 16 := slice_flipElem info (by omega) (by omega)
    simp only [addressOf, scrambledAddress, haddress]
  · simp [groupFlagOf, groupBit]
  · have hcommand : slice (flipElem info 37) 17 10 = slice info 17 10 := slice_flipElem info (by omega) (by omega)
    simp only [commandOf, scrambledCommand, hcommand]

/-- Settles O32: what each pair of errors leaves inverted, and the run of 1s. -/
theorem multipleErrorCases : Obligations.MultipleErrorCases := by
  refine ⟨fun info par fv h0 => ⟨fun k m => repaired_of_far_info_errors h0 fv, fun k _ => repaired_of_adjacent_info_errors h0 fv k,
    fun k => repaired_of_info_errors_two_apart h0 fv, fun k => repaired_of_adjacent_parity_errors h0 fv⟩, ?_⟩
  intro info syn fv a r _ har hrun i hai hir
  exact correctBits_run fv (by omega) (hrun i hai (by omega)) (hrun (i + 1) (by omega) (by omega))

/-- Settles O33: the syndrome is the difference of the two parities, which an error masked by its parity bits does not change. -/
theorem zeroSyndromeOneWay : Obligations.ZeroSyndromeOneWay :=
  ⟨fun _ _ => syndromeOf_eq_zero_iff, fun info => ⟨syndromeOf_eq_zero_iff.mpr rfl,
    fun _ => syndrome_ne_zero_of_info_error info, fun k _ => syndrome_eq_zero_of_masked_error info k⟩⟩

end Sys2Proof.Proofs

/-! The decoder on a block: after one received error (95_test_vectors.md TH3, TH4), and after ENCODE (TH2). -/

namespace Sys2Proof.Machine

/-- In TOGGLE mode the corrected bits of a block are those of its two streams (R110 to R113). -/
theorem blockInfo_toggle (block : Bits76) (fv : Bool) :
    blockInfo block .toggle fv = repaired fv (splitInfo (deinterleave block)) (splitParity (deinterleave block)) := rfl

/-- The table reads no block index twice. -/
theorem deintIndex_inj {i j : Nat} (hi : i < 76) (hj : j < 76) : deintIndex i = deintIndex j ↔ i = j :=
  ⟨fun h => by rw [← deintInverse_deintIndex hi, h, deintInverse_deintIndex hj], congrArg deintIndex⟩

/-- An error in the block is one at the position that the table reads it to. -/
theorem deinterleave_flip (block : Bits76) {i : Nat} (hi : i < 76) :
    deinterleave (flipElem block (deintIndex i)) = flipElem (deinterleave block) i := by
  refine ext_getMsbD fun j hj => ?_
  have hread : ∀ b : Bits76, (deinterleave b).getMsbD j = b.getMsbD (deintIndex j) := fun b => by
    rw [deinterleave_getMsbD, decide_eq_true hj, Bool.true_and]
  rw [hread, flipElem_getMsbD_eq_xor _ _ (deintIndex_lt hj), flipElem_getMsbD_eq_xor _ i hj, hread]
  simp only [deintIndex_inj hj hi]

theorem splitInfo_flip_even (raw : Bits76) (k : Nat) : splitInfo (flipElem raw (2 * k)) = flipElem (splitInfo raw) k := by
  refine ext_getMsbD fun j hj => ?_
  rw [splitInfo_getMsbD, flipElem_getMsbD_eq_xor _ _ (by omega), flipElem_getMsbD_eq_xor _ k hj, splitInfo_getMsbD]
  simp [hj]

theorem splitParity_flip_even (raw : Bits76) (k : Nat) : splitParity (flipElem raw (2 * k)) = splitParity raw := by
  refine ext_getMsbD fun j hj => ?_
  rw [splitParity_getMsbD, splitParity_getMsbD, flipElem_getMsbD_eq_xor _ _ (by omega),
    decide_eq_false (by omega : ¬ 2 * j + 1 = 2 * k), Bool.xor_false]

theorem splitInfo_flip_odd (raw : Bits76) (k : Nat) : splitInfo (flipElem raw (2 * k + 1)) = splitInfo raw := by
  refine ext_getMsbD fun j hj => ?_
  rw [splitInfo_getMsbD, splitInfo_getMsbD, flipElem_getMsbD_eq_xor _ _ (by omega),
    decide_eq_false (by omega : ¬ 2 * j = 2 * k + 1), Bool.xor_false]

theorem splitParity_flip_odd (raw : Bits76) (k : Nat) :
    splitParity (flipElem raw (2 * k + 1)) = flipElem (splitParity raw) k := by
  refine ext_getMsbD fun j hj => ?_
  rw [splitParity_getMsbD, flipElem_getMsbD_eq_xor _ _ (by omega), flipElem_getMsbD_eq_xor _ k hj, splitParity_getMsbD]
  simp [hj]

/-- The decoded fields are functions of the corrected information bits (R155). -/
theorem sameFields_of_blockInfo_eq {b b' : Bits76} {mode : CorrectMode} {fv : Bool}
    (h : blockInfo b mode fv = blockInfo b' mode fv) : SameFields (decodeBlock b mode fv) (decodeBlock b' mode fv) :=
  ⟨h, congrArg addressOf h, congrArg groupFlagOf h, congrArg commandOf h, congrArg checksumReceivedOf h,
    congrArg (fun info => checksumValidOf (checksumReceivedOf info) (checksumOf info)) h⟩

/-- The streams of the interleaved block are the information word and its parity (95_test_vectors.md section 3). -/
theorem deinterleave_interleave_getMsbD (info : Bits38) {i : Nat} (hi : i < 76) :
    (deinterleave (interleave info)).getMsbD i =
      if i % 2 = 0 then info.getMsbD (i / 2) else (parityOf info).getMsbD (i / 2) := by
  rw [deinterleave_getMsbD, interleave, seqOf_getMsbD, decide_eq_true hi, decide_eq_true (deintIndex_lt hi), Bool.true_and,
    Bool.true_and, deintInverse_deintIndex hi]

theorem splitInfo_interleave (info : Bits38) : splitInfo (deinterleave (interleave info)) = info := by
  refine ext_getMsbD fun j hj => ?_
  rw [splitInfo_getMsbD, decide_eq_true hj, Bool.true_and, deinterleave_interleave_getMsbD info (by omega), if_pos (by omega),
    show 2 * j / 2 = j by omega]

theorem splitParity_interleave (info : Bits38) : splitParity (deinterleave (interleave info)) = parityOf info := by
  refine ext_getMsbD fun j hj => ?_
  rw [splitParity_getMsbD, decide_eq_true hj, Bool.true_and, deinterleave_interleave_getMsbD info (by omega),
    if_neg (by omega), show (2 * j + 1) / 2 = j by omega]

theorem blockSyndrome_interleave (info : Bits38) : blockSyndrome (interleave info) = 0 := by
  rw [blockSyndrome, splitInfo_interleave, splitParity_interleave]
  exact syndromeOf_eq_zero_iff.mpr rfl

/-- With a zero syndrome neither mode corrects anything (R112). -/
theorem correctBits_zero (mode : CorrectMode) (fv : Bool) (info : Bits38) : correctBits mode fv info 0 = info := by
  have hpair : ∀ i, pairAt 0 i = false := by simp [pairAt]
  refine ext_getMsbD fun i hi => ?_
  rw [correctBits_getMsbD, hpair]
  simp [hi]

theorem blockInfo_interleave (info : Bits38) (mode : CorrectMode) (fv : Bool) : blockInfo (interleave info) mode fv = info := by
  rw [blockInfo, blockSyndrome_interleave, splitInfo_interleave, correctBits_zero]

/-- The computed checksum of a tuple's information word does not look at its last two fields (R141). -/
theorem checksumOf_infoWord (a : Addr) (g : Bool) (c k k' : Bits10) (l l' : Bool) :
    checksumOf (infoWord a g c k l) = checksumOf (infoWord a g c k' l') := by
  have hslice : slice (infoWord a g c k l) 0 27 = slice (infoWord a g c k' l') 0 27 :=
    (slice_infoWord (by omega) a g c k l).trans (slice_infoWord (by omega) a g c k' l').symm
  refine checksumOf_congr fun j hj => ?_
  simpa using getMsbD_eq_of_slice_eq hslice hj

theorem infoWord_getMsbD_last (a : Addr) (g : Bool) (c k : Bits10) (l : Bool) : (infoWord a g c k l).getMsbD 37 = l := by
  have hslice : slice (infoWord a g c k l) 37 1 = BitVec.ofBool l := slice_append_right _ _
  simpa using congrArg (BitVec.getMsbD · 0) hslice

end Sys2Proof.Machine

namespace Sys2Proof.Proofs
open Sys2Proof.Machine

/-- Settles O34: the error is one of the information or of the parity stream, where the correction leaves the sent bits. -/
theorem blockErrorLeavesFields : Obligations.BlockErrorLeavesFields := by
  refine fun block fv h0 => ⟨fun k hk => ?_, fun k hk => ?_⟩ <;> apply sameFields_of_blockInfo_eq
  · rw [blockInfo_toggle, blockInfo_toggle, deinterleave_flip block (by omega), splitInfo_flip_even, splitParity_flip_even,
      repaired_of_info_error h0 fv hk, repaired_of_no_error h0 fv]
  · rw [blockInfo_toggle, blockInfo_toggle, deinterleave_flip block (by omega), splitInfo_flip_odd, splitParity_flip_odd,
      repaired_of_parity_error h0 fv k, repaired_of_no_error h0 fv]

/-- Settles O49: the streams of an encoded block are the information word and its parity, so nothing is corrected, and the
fields of the word are the tuple. -/
theorem decodeOfEncodedBlock : Obligations.DecodeOfEncodedBlock := by
  rintro a g c l mode fv _ rfl
  have hinfo : blockInfo (encodeBlock a g c l) mode fv = infoWord a g c (checksumOf (infoWord a g c 0 l)) l :=
    blockInfo_interleave _ mode fv
  refine ⟨?_, ?_, ?_, ?_, blockSyndrome_interleave _, ?_⟩
  · exact (congrArg addressOf hinfo).trans (addressOf_infoWord a g c _ l)
  · exact (congrArg groupFlagOf hinfo).trans (groupFlagOf_infoWord a g c _ l)
  · exact (congrArg commandOf hinfo).trans (commandOf_infoWord a g c _ l)
  · simp only [decodeBlock, hinfo]
    rw [checksumValidOf_iff, checksumReceivedOf_infoWord]
    exact checksumOf_infoWord a g c _ _ l l
  · exact (congrArg (BitVec.getMsbD · 37) hinfo).trans (infoWord_getMsbD_last a g c _ l)

end Sys2Proof.Proofs
